-- ==== Sys2Proof/Word.lean ====
section
/-! DEFINITION. The values of the Magma cipher core: unsigned integers of fixed width (spec R9, R11, R140) and bit
strings that carry their own length (spec R60, R62, R66). The operations on them stand in `Decode.lean` and under
`Machine/`. -/

namespace Sys2Proof

/-- "Word32: an unsigned 32-bit integer value" (R140). -/
abbrev Word := BitVec 32

/-- A 64-bit block, high half first (R41). -/
abbrev Block := BitVec 64

/-- A 4-bit value: a nibble of a word, or an S-box entry (R11, R90). -/
abbrev Nibble := BitVec 4

/-- A 256-bit key (R123). -/
abbrev MasterKey := BitVec 256

/-- A bit string: a length in bits and that many bits, bit 0 the least significant (R11). -/
structure Bits where
  len : Nat
  val : BitVec len
  deriving DecidableEq, Repr

/-- A request or response frame: "a bit vector" of the length its format gives (R60, R62). -/
abbrev Frame := Bits

/-- Key material: "a bit string of `klen` bits read as an unsigned integer, most significant bit first" (R66). -/
abbrev KeyMaterial := Bits

/-- RoundKeySchedule: "an ordered sequence of exactly 32 Word32 values", element `i` being `RK[i]` (R67, R120). -/
abbrev Schedule := Vector Word 32

/-- The pair of halves `(a1, a0)` of the Feistel network, high half first (R41, R110). -/
structure Halves where
  a1 : Word
  a0 : Word
  deriving DecidableEq, Repr

end Sys2Proof
end

