-- ==== Sys2Proof/Config.lean ====
section
/-! DEFINITION. What is fixed for one core and never changes while it runs: the two parameters of spec R10. The
values R10 gives them stand in `Machine/Rom.lean` (the S-box contents) and `Decode.lean` (the field width). No
component of the core has an open result, so there is no free value here (spec 93_implementation_defined.md Part 1). -/

namespace Sys2Proof

/-- The S-box array: eight tables of sixteen 4-bit entries; entry `v` of table `i` is `SBOX[i][v]` (R21, R90). -/
abbrev SBox := Vector (Vector Nibble 16) 8

/-- The configuration of a core (R10): the contents of its S-box array, which R21 calls "configuration, not a field of
a mutable state record", and the width in bits of the `klen` field of an EXPKEY request. -/
structure Config where
  sbox  : SBox
  klenW : Nat
  deriving DecidableEq, Repr

/-- Each of the eight tables is "a bijection on 4-bit values" (R92): on sixteen values, no two entries are equal. -/
abbrev SBox.IsBijective (b : SBox) : Prop :=
  ∀ i : Fin 8, ∀ u v : Fin 16, b[i][u] = b[i][v] → u = v

/-- The configurations the spec admits: R92 of the tables, and R10's "any value of 9 or more" of the field width. -/
abbrev Config.Valid (c : Config) : Prop :=
  c.sbox.IsBijective ∧ 9 ≤ c.klenW

end Sys2Proof
end

