-- ==== Sys2Proof/Syntax.lean ====
section
/-! DEFINITION. The operations of the core and its responses, as decoded values (spec R2, R61, R68, R69). -/

namespace Sys2Proof

/-- The eight operation codes, in the order of R61. -/
inductive Op where
  | subst | rotl11 | gfn | fstep | ffinal | expkey | enc | dec
  deriving DecidableEq, Repr

/-- A request: one of "exactly the eight public operations" with its operands in the order of its signature, most
significant first (R2, R61). -/
inductive Instr where
  /-- SUBST `w` (R63, R91). -/
  | subst (w : Word)
  /-- ROTL11 `w` (R63, R100). -/
  | rotl11 (w : Word)
  /-- GFN `k, a` (R64, R105). -/
  | gfn (k a : Word)
  /-- FSTEP `k, a1, a0` (R65, R110). -/
  | fstep (k a1 a0 : Word)
  /-- FFINAL `k, a1, a0` (R65, R111). -/
  | ffinal (k a1 a0 : Word)
  /-- EXPKEY `km`: key material of any length, with its length (R66, R120, R121). -/
  | expkey (km : KeyMaterial)
  /-- ENC `blk, sched` (R67, R130). -/
  | enc (blk : Block) (sched : Schedule)
  /-- DEC `blk, sched` (R67, R131). -/
  | dec (blk : Block) (sched : Schedule)
  deriving DecidableEq, Repr

/-- The operation a request names. -/
def Instr.op : Instr → Op
  | .subst _ => .subst
  | .rotl11 _ => .rotl11
  | .gfn _ _ => .gfn
  | .fstep _ _ _ => .fstep
  | .ffinal _ _ _ => .ffinal
  | .expkey _ => .expkey
  | .enc _ _ => .enc
  | .dec _ _ => .dec

/-- A response, before it is laid out as a frame (R68, R69). -/
inductive Response where
  /-- Format Q1: the Word32 result of SUBST, ROTL11 or GFN. -/
  | word (r : Word)
  /-- Format Q2 of FSTEP: the result pair `(a1', a0')`. -/
  | pair (p : Halves)
  /-- Format Q2 of FFINAL, ENC and DEC: the Block64 result. -/
  | block (d : Block)
  /-- Format QS: the schedule of a successful EXPKEY. -/
  | schedule (rk : Schedule)
  /-- Format QE: the one error, which carries nothing else. -/
  | invalidKeyLength
  deriving DecidableEq, Repr

end Sys2Proof
end

