-- ==== Sys2Proof/WellFormed.lean ====
section
/-! DEFINITION. Which requests have a frame (spec R60 to R67, R71). Every field but the key material is used at its own
fixed width, so the types already bound it; the one check is that the length of the key material fits its field. -/

namespace Sys2Proof

/-- "the length of the key material in bits, 0 to `2^KLEN_W - 1`" (R66; longer material "cannot be encoded",
93_implementation_defined.md U4). -/
def KeyMaterial.fits (klenW : Nat) (km : KeyMaterial) : Bool := decide (km.len < 2 ^ klenW)

/-- The requests that can be laid out as a frame in a core whose `klen` field is `klenW` bits wide. -/
def Instr.wf (klenW : Nat) : Instr → Bool
  | .subst _ => true
  | .rotl11 _ => true
  | .gfn _ _ => true
  | .fstep _ _ _ => true
  | .ffinal _ _ _ => true
  | .expkey km => KeyMaterial.fits klenW km
  | .enc _ _ => true
  | .dec _ _ => true

end Sys2Proof
end

