-- ==== Sys2Proof/Decode.lean ====
section
/-! DEFINITION. Frames: reading a request from a bit vector of any length, laying one out, and the same for responses
(spec 30_encoding.md, R60 to R71), with the one S-box-independent parameter `KLEN_W` (R10). -/

namespace Sys2Proof

/-- `KLEN_W`, "16 unless the model is configured otherwise" (R10, R66). -/
def defaultKlenW : Nat := 16

/-- The field of width `w` whose lowest bit is bit `lo`: `f[lo+w-1 : lo]` (R11). -/
def Bits.field (f : Bits) (lo w : Nat) : BitVec w := f.val.extractLsb' lo w

/-- The code of an operation (R61). -/
def Op.code : Op → BitVec 3
  | .subst => 0
  | .rotl11 => 1
  | .gfn => 2
  | .fstep => 3
  | .ffinal => 4
  | .expkey => 5
  | .enc => 6
  | .dec => 7

/-- The operation a code names: "`op` takes all eight values and each names one operation" (R61, R71). -/
def opOfCode (b : BitVec 3) : Op :=
  if b = 0 then .subst
  else if b = 1 then .rotl11
  else if b = 2 then .gfn
  else if b = 3 then .fstep
  else if b = 4 then .ffinal
  else if b = 5 then .expkey
  else if b = 6 then .enc
  else .dec

/-- The schedule held in a 1024-bit field: `RK[i] = sched[1023-32i : 992-32i]` (R67, R69). -/
def unpackSchedule (b : BitVec 1024) : Schedule :=
  Vector.ofFn fun i => b.extractLsb' (992 - 32 * i.val) 32

/-- `RK[0] || RK[1] || ... || RK[31]`, `RK[0]` most significant (R67, R120). -/
def packSchedule (rk : Schedule) : BitVec 1024 :=
  rk.toList.foldl (fun acc w => (acc <<< 32) ||| w.setWidth 1024) 0#1024

/-- `req[2:0]` (R60). -/
def requestOp (f : Frame) : Op := opOfCode (f.field 0 3)

/-- `req[KLEN_W+2 : 3]`, the length of the key material of a frame of format KM (R66). -/
def requestKlen (klenW : Nat) (f : Frame) : Nat := (f.field 3 klenW).toNat

/-- The length a frame must have, "determined by `op` alone for W1, W2, W3 and BS (35, 67, 99, 1091 bits), and by `op`
and `klen` for KM" (R71). -/
def requestLength (klenW : Nat) (f : Frame) : Nat :=
  match requestOp f with
  | .subst => 35
  | .rotl11 => 35
  | .gfn => 67
  | .fstep => 99
  | .ffinal => 99
  | .expkey => 3 + klenW + requestKlen klenW f
  | .enc => 1091
  | .dec => 1091

/-- The fields of a frame, read as the format of its operation says (R63 to R67). -/
def requestFields (klenW : Nat) (f : Frame) : Instr :=
  match requestOp f with
  | .subst => .subst (f.field 3 32)
  | .rotl11 => .rotl11 (f.field 3 32)
  | .gfn => .gfn (f.field 35 32) (f.field 3 32)
  | .fstep => .fstep (f.field 67 32) (f.field 35 32) (f.field 3 32)
  | .ffinal => .ffinal (f.field 67 32) (f.field 35 32) (f.field 3 32)
  | .expkey => .expkey ⟨requestKlen klenW f, f.field (3 + klenW) (requestKlen klenW f)⟩
  | .enc => .enc (f.field 1027 64) (unpackSchedule (f.field 3 1024))
  | .dec => .dec (f.field 1027 64) (unpackSchedule (f.field 3 1024))

/-- The request a bit vector spells. One "whose length is not the one its `op` (and `klen`) give *spells no request*"
and is refused (R71, 93_implementation_defined.md U3). -/
def decodeFrame (klenW : Nat) (f : Frame) : Option Instr :=
  if f.len = requestLength klenW f then some (requestFields klenW f) else none

/-- The frame of a request: the operands in signature order, the first most significant, above the code (R60, R63 to
R67). -/
def encode (klenW : Nat) : Instr → Frame
  | .subst w => ⟨35, w ++ Op.subst.code⟩
  | .rotl11 w => ⟨35, w ++ Op.rotl11.code⟩
  | .gfn k a => ⟨67, k ++ a ++ Op.gfn.code⟩
  | .fstep k a1 a0 => ⟨99, k ++ a1 ++ a0 ++ Op.fstep.code⟩
  | .ffinal k a1 a0 => ⟨99, k ++ a1 ++ a0 ++ Op.ffinal.code⟩
  | .expkey km => ⟨km.len + klenW + 3, km.val ++ BitVec.ofNat klenW km.len ++ Op.expkey.code⟩
  | .enc blk rk => ⟨1091, blk ++ packSchedule rk ++ Op.enc.code⟩
  | .dec blk rk => ⟨1091, blk ++ packSchedule rk ++ Op.dec.code⟩

/-- The frame of a response: the result above the status bit, which is 1 for InvalidKeyLength alone (R62, R68, R69). -/
def encodeResponse : Response → Frame
  | .word r => ⟨33, r ++ 0#1⟩
  | .pair p => ⟨65, p.a1 ++ p.a0 ++ 0#1⟩
  | .block d => ⟨65, d ++ 0#1⟩
  | .schedule rk => ⟨1025, packSchedule rk ++ 0#1⟩
  | .invalidKeyLength => ⟨1, 1#1⟩

/-- The status bit `st = rsp[0]` (R62, R68). -/
def responseStatus (f : Frame) : BitVec 1 := f.field 0 1

/-- A result of `len` bits read above a status bit of 0, or nothing where the frame is not of that form. -/
def resultField (len : Nat) (f : Frame) : Option (BitVec len) :=
  if f.len = len + 1 ∧ responseStatus f = 0 then some (f.field 1 len) else none

/-- How the caller of an operation reads its response: by the response format R61 gives the operation (R69). -/
def decodeResponse (o : Op) (f : Frame) : Option Response :=
  match o with
  | .subst => (resultField 32 f).map .word
  | .rotl11 => (resultField 32 f).map .word
  | .gfn => (resultField 32 f).map .word
  | .fstep => (resultField 64 f).map fun d => .pair ⟨d.extractLsb' 32 32, d.extractLsb' 0 32⟩
  | .ffinal => (resultField 64 f).map .block
  | .expkey =>
    if f.len = 1 ∧ responseStatus f = 1 then some .invalidKeyLength
    else (resultField 1024 f).map fun b => .schedule (unpackSchedule b)
  | .enc => (resultField 64 f).map .block
  | .dec => (resultField 64 f).map .block

/-- The frame whose bits are those of `w`, numbered as spec/opcode_table.json numbers them: the low bits of `w mod
2^nbits`, as many as the code and the `klen` field found there give (R71). Bits above `nbits` are zero, and bits of `w`
above the frame's end (the rounding up to whole bytes) are no bits of the frame (log entry 9). -/
def frameOfTableWord (klenW nbits w : Nat) : Frame :=
  let wide : Frame := ⟨nbits, BitVec.ofNat nbits w⟩
  ⟨requestLength klenW wide, BitVec.ofNat (requestLength klenW wide) (w % 2 ^ nbits)⟩

/-- The decoder's answer on an opcode-table word, at the width R10 gives the `klen` field. -/
def decodeTableWord (nbits w : Nat) : Option Instr :=
  decodeFrame defaultKlenW (frameOfTableWord defaultKlenW nbits w)

end Sys2Proof
end

