-- ==== Sys2Proof/Machine/Rom.lean ====
section
/-! DEFINITION. The contents of the S-box array and the configuration of the core as the spec gives it (R10, R90). The
source names the standard and prints no entry: the table is from general knowledge (mark: PRESUMED, log entry 2). -/

namespace Sys2Proof.Machine

/-- The table of R90, row `i` being `SBOX[i][0]` to `SBOX[i][15]`. PRESUMED, unsafe (log entry 2). -/
def magmaSBox : SBox :=
  #v[#v[12, 4, 6, 2, 10, 5, 11, 9, 14, 8, 13, 7, 0, 3, 15, 1],
     #v[6, 8, 2, 3, 9, 10, 5, 12, 1, 14, 4, 7, 11, 13, 0, 15],
     #v[11, 3, 5, 8, 2, 15, 10, 13, 14, 1, 7, 4, 12, 9, 6, 0],
     #v[12, 8, 2, 1, 13, 4, 15, 6, 7, 0, 10, 5, 3, 14, 9, 11],
     #v[7, 15, 5, 10, 8, 1, 6, 13, 0, 9, 3, 14, 11, 4, 2, 12],
     #v[5, 13, 15, 6, 9, 2, 12, 10, 11, 7, 8, 1, 4, 3, 14, 0],
     #v[8, 14, 2, 5, 6, 9, 1, 12, 15, 4, 11, 0, 13, 10, 3, 7],
     #v[1, 7, 14, 13, 0, 5, 8, 3, 4, 15, 10, 6, 9, 12, 11, 2]]

/-- The parameters of R10 at their stated values. -/
def magmaConfig : Config := { sbox := magmaSBox, klenW := defaultKlenW }

end Sys2Proof.Machine
end

