-- ==== Sys2Proof/Machine/State.lean ====
section
/-! DEFINITION. The state of the machine, its two kinds of stop, and the state after reset (spec R20 to R31, R180 to
R183). The core keeps no key, schedule, register, program counter, flag, mode, memory or error latch between
transactions (R22 to R30), so State has no field for one: "a model must not add such a register" (R22). -/

namespace Sys2Proof.Machine

/-- Why a step stops with a fault: never. No operation can fail with a stop (R152), and the one error the core raises is
a response after which it "takes the next request normally" (R151). -/
inductive Fault
  deriving DecidableEq, Repr

/-- Why a step has no meaning. -/
inductive Refusal where
  /-- Raised by a refused arm of exec, for an operation not modelled yet; no arm is refused. Safe. -/
  | notModelled (mnemonic : String)
  /-- Raised by `step` on a frame whose length is not the one its code (and `klen`) give: "FGC says nothing about it, no
  rule of this spec gives it a meaning, and a model's decoder must refuse it rather than guess" (R71, U3). Safe. -/
  | spellsNoRequest
  deriving DecidableEq, Repr

/-- The core with the two ends of its transport. -/
structure State where
  /-- The S-box array, "the only state of the core" (R21), and `KLEN_W`: constant, written by no operation. -/
  config    : Config
  /-- MODEL'S OWN (R75, log entry 4): the request frames delivered and not yet taken, the oldest first. -/
  requests  : List Frame
  /-- MODEL'S OWN (R75, log entry 4): the response frames emitted and not yet collected, the oldest first. -/
  responses : List Frame
  deriving DecidableEq, Repr

/-- After reset "`SBOX` holds its constant contents; there is no other state to give a reset value to" (R31, R181). No
frame is in transit (DESIGN CHOICE, log entry 4). -/
def State.reset : State := { config := magmaConfig, requests := [], responses := [] }

end Sys2Proof.Machine
end

