-- ==== Sys2Proof/Machine/Operands.lean ====
section
/-! DEFINITION. Operand assembly: "the only assembly steps are the ones FGC itself defines" (spec R70), namely the halves
of a block, the nibbles of a word and the sub-keys of a key. The words of a schedule field are in `Decode.lean`. -/

namespace Sys2Proof.Machine

/-- Nibble `i` of a word, `a[4i+3 : 4i]`, nibble 0 the least significant (R11, R42). -/
def nibble (a : Word) (i : Nat) : Nibble := a.extractLsb' (4 * i) 4

/-- A block's halves: `a1 = block[63:32]`, `a0 = block[31:0]` (R11, R41). -/
def splitBlock (b : Block) : Halves := { a1 := b.extractLsb' 32 32, a0 := b.extractLsb' 0 32 }

/-- `high || low` (R41). -/
def joinHalves (p : Halves) : Block := p.a1 ++ p.a0

/-- The eight sub-keys of a key: `K[j] = km[255-32j : 224-32j]` (R40, R123). -/
def subKeys (key : MasterKey) : Vector Word 8 :=
  Vector.ofFn fun j => key.extractLsb' (224 - 32 * j.val) 32

end Sys2Proof.Machine
end

