-- ==== Sys2Proof/Machine/Flags.lean ====
section
/-! DEFINITION. The core has no flags, condition codes or predicates, and keeps no carry (spec R25). Its one indication
is the status bit `st` of a response, "not a register: it is not readable later and the next transaction does not see
it" (R25, R68); the layout of a response in `Decode.lean` sets it. -/

namespace Sys2Proof.Machine

/-- The one test that decides it: `st` is 1 exactly where EXPKEY finds `klen != 256` (R68, R121, R151). -/
def isMasterKeyLength (km : KeyMaterial) : Bool := km.len == 256

end Sys2Proof.Machine
end

