-- ==== Sys2Proof/Machine/Ops.lean ====
section
/-! DEFINITION. The shared operations: the reads of the S-box array, the transforms `t`, `rotl11`, `g`, `G` and `G*`, the
key expansion, the 32-round network, and emitting a response, the error response among them. Every transform takes the
S-box array as an argument: "every rule of this spec other than rule R90 holds for any `SBOX`" that R92 admits (R10). -/

namespace Sys2Proof.Machine

/-- `SBOX[i][v]`, the only array read in the machine; always in range (R13, R45, R47). -/
def sboxRead (sbox : SBox) (i : Fin 8) (v : Nibble) : Nibble := sbox[i][v.toNat]'v.isLt

/-- `MemRead(addr, 4 bits)` on the SBOX address space: location `i[2:0] || v[3:0]`, that is `16*i + v` (R13, R46). -/
def sboxReadFlat (sbox : SBox) (addr : BitVec 7) : Nibble :=
  sboxRead sbox ⟨(addr.extractLsb' 4 3).toNat, (addr.extractLsb' 4 3).isLt⟩ (addr.extractLsb' 0 4)

/-- `t(a)`: nibble `i` is replaced by the entry table `i` holds for it; `u_7 || ... || u_0` (R91). -/
def substitute (sbox : SBox) (a : Word) : Word :=
  let u (i : Fin 8) : Nibble := sboxRead sbox i (nibble a i)
  u 7 ++ u 6 ++ u 5 ++ u 4 ++ u 3 ++ u 2 ++ u 1 ++ u 0

/-- `rotl11(v) = v[20:0] || v[31:21]` (R100). -/
def rotateLeft11 (v : Word) : Word := v.extractLsb' 0 21 ++ v.extractLsb' 21 11

/-- `g[k](a)`: add modulo 2^32, then substitute, then rotate; no carry is kept (R105). -/
def roundFunction (sbox : SBox) (k a : Word) : Word := rotateLeft11 (substitute sbox (a + k))

/-- `G[k](a1, a0) = (a0, a1 XOR g[k](a0))`, both from the old halves (R110). -/
def feistelStep (sbox : SBox) (k : Word) (p : Halves) : Halves :=
  { a1 := p.a0, a0 := p.a1 ^^^ roundFunction sbox k p.a0 }

/-- `G*[k](a1, a0) = (a1 XOR g[k](a0)) || a0`: the halves are not swapped (R111). -/
def feistelFinal (sbox : SBox) (k : Word) (p : Halves) : Block :=
  joinHalves { a1 := p.a1 ^^^ roundFunction sbox k p.a0, a0 := p.a0 }

/-- `RK[i] = K[i mod 8]` for `i` below 24, `RK[i] = K[31 - i]` from 24 on (R120, R122). -/
def expandKey (key : MasterKey) : Schedule :=
  Vector.ofFn fun i : Fin 32 =>
    if i.val < 24 then (subKeys key)[i.val % 8]'(Nat.mod_lt _ (by decide))
    else (subKeys key)[(31 - i.val) % 8]'(Nat.mod_lt _ (by decide))

/-- The round keys of the 31 swapping rounds of ENC, "in rising order" (R24, R130). -/
def encOrder : List (Fin 32) :=
  [0, 1, 2, 3, 4, 5, 6, 7, 8, 9, 10, 11, 12, 13, 14, 15, 16, 17, 18, 19, 20, 21, 22, 23, 24, 25, 26, 27, 28, 29, 30]

/-- The round keys of the 31 swapping rounds of DEC, "in falling order" from `RK[31]` to `RK[1]` (R131, R186, C2). -/
def decOrder : List (Fin 32) :=
  [31, 30, 29, 28, 27, 26, 25, 24, 23, 22, 21, 20, 19, 18, 17, 16, 15, 14, 13, 12, 11, 10, 9, 8, 7, 6, 5, 4, 3, 2, 1]

/-- The halves after the swapping rounds that take the round keys of `order`, one after another. -/
def feistelRounds (sbox : SBox) (rk : Schedule) (order : List (Fin 32)) (p : Halves) : Halves :=
  order.foldl (fun q i => feistelStep sbox rk[i] q) p

/-- The round trace `(A1[j], A0[j])` of one ENC (R133). -/
def encTrace (sbox : SBox) (rk : Schedule) (blk : Block) (j : Nat) : Halves :=
  feistelRounds sbox rk (encOrder.take j) (splitBlock blk)

/-- The round trace `(B1[j], B0[j])` of one DEC (R133). -/
def decTrace (sbox : SBox) (rk : Schedule) (blk : Block) (j : Nat) : Halves :=
  feistelRounds sbox rk (decOrder.take j) (splitBlock blk)

/-- 31 steps `G` with `RK[0]` to `RK[30]`, then `G*` with `RK[31]` (R130), on any 32 words (R136). -/
def encryptBlock (sbox : SBox) (blk : Block) (rk : Schedule) : Block :=
  feistelFinal sbox rk[31] (feistelRounds sbox rk encOrder (splitBlock blk))

/-- 31 steps `G` with `RK[31]` down to `RK[1]`, then `G*` with `RK[0]` (R131, R186), on any 32 words (R136). -/
def decryptBlock (sbox : SBox) (blk : Block) (rk : Schedule) : Block :=
  feistelFinal sbox rk[0] (feistelRounds sbox rk decOrder (splitBlock blk))

/-- The state once a frame is emitted: "every request gets exactly one response", and no rule writes anything else (R62,
R189). -/
def State.emit (s : State) (f : Frame) : State := { s with responses := s.responses ++ [f] }

/-- End the transaction with a response: `rsp.f <- v` (R13, R62). -/
def respond (s : State) (r : Response) : Host.Outcome State Fault Refusal := .next (s.emit (encodeResponse r))

/-- `raise InvalidKeyLength`: the core's one exception. Its whole entry is the response QE: "Nothing is saved, no mode
changes, control goes nowhere" (R13, R151, R158), and "there is nothing to return from" (R159). -/
def raiseInvalidKeyLength (s : State) : Host.Outcome State Fault Refusal := respond s .invalidKeyLength

end Sys2Proof.Machine
end

