-- ==== Sys2Proof/Machine/BlockCipher.lean ====
section
/-! DEFINITION. The meanings of ENC and DEC (spec 45_block_cipher.md). -/

namespace Sys2Proof.Machine

/-- ENC answers the ciphertext of one block under the schedule it is given, which is not checked (R130, R136). -/
def execEnc (blk : Block) (sched : Schedule) (s : State) : Host.Outcome State Fault Refusal :=
  respond s (.block (encryptBlock s.config.sbox blk sched))

/-- DEC answers the plaintext of one block under the same schedule, which is not checked (R131, R136). -/
def execDec (blk : Block) (sched : Schedule) (s : State) : Host.Outcome State Fault Refusal :=
  respond s (.block (decryptBlock s.config.sbox blk sched))

end Sys2Proof.Machine
end

