-- ==== Sys2Proof/Machine/Feistel.lean ====
section
/-! DEFINITION. The meanings of FSTEP and FFINAL (spec 43_feistel_steps.md). -/

namespace Sys2Proof.Machine

/-- FSTEP answers the pair `G[k](a1, a0)`; total (R110). -/
def execFstep (k a1 a0 : Word) (s : State) : Host.Outcome State Fault Refusal :=
  respond s (.pair (feistelStep s.config.sbox k { a1 := a1, a0 := a0 }))

/-- FFINAL answers the block `G*[k](a1, a0)`; total (R111). -/
def execFfinal (k a1 a0 : Word) (s : State) : Host.Outcome State Fault Refusal :=
  respond s (.block (feistelFinal s.config.sbox k { a1 := a1, a0 := a0 }))

end Sys2Proof.Machine
end

