-- ==== Sys2Proof/Machine/KeySchedule.lean ====
section
/-! DEFINITION. The meaning of EXPKEY (spec 44_key_schedule.md). -/

namespace Sys2Proof.Machine

/-- EXPKEY answers the schedule of a key of exactly 256 bits (R120) and raises InvalidKeyLength on material of any other
length, "whatever `km` holds" (R121). It reads no S-box (R30). The 256 bits are read at offset 0 only once the length is
known to be 256, so nothing is truncated or padded. -/
def execExpkey (km : KeyMaterial) (s : State) : Host.Outcome State Fault Refusal :=
  if isMasterKeyLength km then respond s (.schedule (expandKey (km.field 0 256)))
  else raiseInvalidKeyLength s

end Sys2Proof.Machine
end

