-- ==== Sys2Proof/Machine/Rotation.lean ====
section
/-! DEFINITION. The meaning of ROTL11 (spec 41_rotation.md). -/

namespace Sys2Proof.Machine

/-- ROTL11 answers `w` rotated left by 11; total, and reads no S-box (R30, R100). -/
def execRotl11 (w : Word) (s : State) : Host.Outcome State Fault Refusal :=
  respond s (.word (rotateLeft11 w))

end Sys2Proof.Machine
end

