-- ==== Sys2Proof/Machine/Round.lean ====
section
/-! DEFINITION. The meaning of GFN (spec 42_round_function.md). -/

namespace Sys2Proof.Machine

/-- GFN answers `g[k](a)`; total (R105). -/
def execGfn (k a : Word) (s : State) : Host.Outcome State Fault Refusal :=
  respond s (.word (roundFunction s.config.sbox k a))

end Sys2Proof.Machine
end

