-- ==== Sys2Proof/Machine/Substitution.lean ====
section
/-! DEFINITION. The meaning of SUBST (spec 40_sbox_substitution.md). -/

namespace Sys2Proof.Machine

/-- SUBST answers `t(w)`; total (R91). -/
def execSubst (w : Word) (s : State) : Host.Outcome State Fault Refusal :=
  respond s (.word (substitute s.config.sbox w))

end Sys2Proof.Machine
end

