-- ==== Sys2Proof/Machine/Dispatch.lean ====
section
/-! DEFINITION. One arm per operation of spec R61. -/

namespace Sys2Proof.Machine

def exec (i : Instr) (s : State) : Host.Outcome State Fault Refusal :=
  match i with
  | .subst w => Sys2Proof.Machine.execSubst w s
  | .rotl11 w => Sys2Proof.Machine.execRotl11 w s
  | .gfn k a => Sys2Proof.Machine.execGfn k a s
  | .fstep k a1 a0 => Sys2Proof.Machine.execFstep k a1 a0 s
  | .ffinal k a1 a0 => Sys2Proof.Machine.execFfinal k a1 a0 s
  | .expkey km => Sys2Proof.Machine.execExpkey km s
  | .enc blk sched => Sys2Proof.Machine.execEnc blk sched s
  | .dec blk sched => Sys2Proof.Machine.execDec blk sched s

end Sys2Proof.Machine
end

