-- ==== Sys2Proof/Machine/Transport.lean ====
section
/-! DEFINITION. The two ends of the transport, which is the open parameter of spec R75: it "delivers each request frame
intact and returns each response frame to the caller that sent the request". Here it is two queues in order of arrival
(DESIGN CHOICE, log entry 4): the `j`-th response answers the `j`-th request taken. -/

namespace Sys2Proof.Machine

/-- A caller issues a request: its frame joins the queue (R60, R75). -/
def State.submit (s : State) (f : Frame) : State := { s with requests := s.requests ++ [f] }

/-- The oldest response returns to its caller (R62, R75). -/
def State.collect (s : State) : Option (Frame × State) :=
  match s.responses with
  | [] => none
  | f :: rest => some (f, { s with responses := rest })

/-- The core takes the oldest request waiting, or finds none. -/
def State.takeRequest (s : State) : Option (Frame × State) :=
  match s.requests with
  | [] => none
  | f :: rest => some (f, { s with requests := rest })

/-- The state with one more frame in front of those waiting: the next one the core takes. -/
def State.putFirst (s : State) (f : Frame) : State := { s with requests := f :: s.requests }

end Sys2Proof.Machine
end

