-- ==== Sys2Proof/Machine/Step.lean ====
section
/-! DEFINITION. One step: "one whole *transaction*: it takes one request frame, computes the operation the frame names,
and emits one response frame" (spec R20). -/

namespace Sys2Proof.Machine

/-- The core "speaks only when spoken to" (R156): with no request waiting a step changes nothing (DESIGN CHOICE, log entry
5). A frame that spells no request is refused (R71, U3). -/
def step (s : State) : Host.Outcome State Fault Refusal :=
  match s.takeRequest with
  | none => .next s
  | some (f, rest) =>
    match decodeFrame s.config.klenW f with
    | none => .refused .spellsNoRequest
    | some i => exec i rest

/-- The state whose next step takes the frame of an opcode-table word (log entry 9). -/
def State.withFetchWord (s : State) (nbits w : Nat) : State :=
  s.putFirst (frameOfTableWord s.config.klenW nbits w)

end Sys2Proof.Machine
end

