-- ==== Sys2Proof/Machine/Assembler.lean ====
section
/-! DEFINITION. The text of one request with literal operands (spec R72, R73): printing it and reading it back. Names bound
to results and `host:` lines belong to the caller's program, not to the core (R72, R142; log entry 11). Text is a list of
characters, so that the kernel evaluates it. -/

namespace Sys2Proof.Machine

/-- The mnemonic of an operation (R61). -/
def mnemonic : Op → List Char
  | .subst => ['S', 'U', 'B', 'S', 'T']
  | .rotl11 => ['R', 'O', 'T', 'L', '1', '1']
  | .gfn => ['G', 'F', 'N']
  | .fstep => ['F', 'S', 'T', 'E', 'P']
  | .ffinal => ['F', 'F', 'I', 'N', 'A', 'L']
  | .expkey => ['E', 'X', 'P', 'K', 'E', 'Y']
  | .enc => ['E', 'N', 'C']
  | .dec => ['D', 'E', 'C']

/-- The eight operations in the order of R61. -/
def allOps : List Op := [.subst, .rotl11, .gfn, .fstep, .ffinal, .expkey, .enc, .dec]

/-- The operation a mnemonic names. -/
def opOfMnemonic (m : List Char) : Option Op := allOps.find? fun o => mnemonic o == m

/-- The digit of value `d`, as this spec prints it (R43, R73). -/
def digitChar (d : Nat) : Char := if d < 10 then Char.ofNat (48 + d) else Char.ofNat (87 + d)

/-- The value of a hexadecimal character; capitals are read as well (DESIGN CHOICE, log entry 11). -/
def digitValue (c : Char) : Option Nat :=
  if 48 ≤ c.toNat ∧ c.toNat ≤ 57 then some (c.toNat - 48)
  else if 97 ≤ c.toNat ∧ c.toNat ≤ 102 then some (c.toNat - 87)
  else if 65 ≤ c.toNat ∧ c.toNat ≤ 70 then some (c.toNat - 55)
  else none

/-- `n` hexadecimal characters, most significant first (R43, R73). -/
def hexText : (n v : Nat) → List Char
  | 0, _ => []
  | n + 1, v => hexText n (v / 16) ++ [digitChar (v % 16)]

/-- A number in decimal, most significant digit first; `fuel` bounds the number of digits. -/
def decimalText : (fuel v : Nat) → List Char
  | 0, v => [digitChar (v % 10)]
  | fuel + 1, v => if v < 10 then [digitChar v] else decimalText fuel (v / 10) ++ [digitChar (v % 10)]

/-- The number that digits of a base spell, or nothing where one is no digit of the base. -/
def readDigits (base : Nat) (text : List Char) : Option Nat :=
  text.foldl (fun acc c =>
    match acc, digitValue c with
    | some a, some d => if d < base then some (base * a + d) else none
    | _, _ => none) (some 0)

/-- A literal of exactly `n` hexadecimal characters (R73). -/
def readHex (n : Nat) (text : List Char) : Option Nat := if text.length = n then readDigits 16 text else none

def wordText (w : Word) : List Char := hexText 8 w.toNat

def readWord (text : List Char) : Option Word := (readHex 8 text).map (BitVec.ofNat 32)

def blockText (b : Block) : List Char := hexText 16 b.toNat

def readBlock (text : List Char) : Option Block := (readHex 16 text).map (BitVec.ofNat 64)

/-- Key material: 64 characters where it is 256 bits long, else `<klen>'h<digits>` with `ceil(klen/4)` characters (R73). -/
def keyText (km : KeyMaterial) : List Char :=
  if km.len = 256 then hexText 64 km.val.toNat
  else decimalText km.len km.len ++ ['\'', 'h'] ++ hexText ((km.len + 3) / 4) km.val.toNat

/-- "any bits above bit `klen-1` in the first character are zero" (R73): a text where one is set is no literal. -/
def keyOfDigits (klen : Nat) (text : List Char) : Option KeyMaterial :=
  match readHex ((klen + 3) / 4) text with
  | some v => if v < 2 ^ klen then some ⟨klen, BitVec.ofNat klen v⟩ else none
  | none => none

/-- Key material in either form (R73). -/
def readKey (text : List Char) : Option KeyMaterial :=
  match text.span (· != '\'') with
  | (digits, []) => keyOfDigits 256 digits
  | ([], _) => none
  | (len, '\'' :: 'h' :: digits) => (readDigits 10 len).bind fun klen => keyOfDigits klen digits
  | _ => none

def openBrace : Char := Char.ofNat 123

def closeBrace : Char := Char.ofNat 125

/-- Texts with one separator between each two. -/
def joinWith (sep : List Char) : List (List Char) → List Char
  | [] => []
  | [t] => t
  | t :: u :: rest => t ++ sep ++ joinWith sep (u :: rest)

/-- A text cut at every occurrence of a character. -/
def cutAt (c : Char) (text : List Char) : List (List Char) :=
  text.foldr (fun x pieces =>
    if x = c then [] :: pieces
    else match pieces with
      | [] => [[x]]
      | p :: ps => (x :: p) :: ps) [[]]

/-- A text without the blanks at its two ends. -/
def trim (text : List Char) : List Char :=
  ((text.dropWhile (· == ' ')).reverse.dropWhile (· == ' ')).reverse

/-- A schedule: 32 word literals in braces, `RK[0]` first (R73). -/
def scheduleText (rk : Schedule) : List Char :=
  [openBrace] ++ joinWith [' '] (rk.toList.map wordText) ++ [closeBrace]

/-- Exactly 32 words, or nothing. -/
def scheduleOfWords (ws : List Word) : Option Schedule :=
  if h : ws.length = 32 then some ⟨ws.toArray, by simpa using h⟩ else none

def readSchedule (text : List Char) : Option Schedule :=
  match text with
  | [] => none
  | o :: rest =>
    if o = openBrace ∧ rest.getLast? = some closeBrace then
      (((cutAt ' ' rest.dropLast).filter (· ≠ [])).mapM readWord).bind scheduleOfWords
    else none

/-- The operands of a request, in signature order (R72). -/
def operandTexts : Instr → List (List Char)
  | .subst w => [wordText w]
  | .rotl11 w => [wordText w]
  | .gfn k a => [wordText k, wordText a]
  | .fstep k a1 a0 => [wordText k, wordText a1, wordText a0]
  | .ffinal k a1 a0 => [wordText k, wordText a1, wordText a0]
  | .expkey km => [keyText km]
  | .enc blk rk => [blockText blk, scheduleText rk]
  | .dec blk rk => [blockText blk, scheduleText rk]

/-- "its mnemonic followed by its operands in signature order, separated by commas" (R72). -/
def requestText (i : Instr) : List Char :=
  mnemonic i.op ++ [' '] ++ joinWith [',', ' '] (operandTexts i)

/-- The request an operation makes of operand texts; nothing where their number or form is another's. -/
def requestOfOperands : Op → List (List Char) → Option Instr
  | .subst, [w] => (readWord w).map .subst
  | .rotl11, [w] => (readWord w).map .rotl11
  | .gfn, [k, a] => do return .gfn (← readWord k) (← readWord a)
  | .fstep, [k, a1, a0] => do return .fstep (← readWord k) (← readWord a1) (← readWord a0)
  | .ffinal, [k, a1, a0] => do return .ffinal (← readWord k) (← readWord a1) (← readWord a0)
  | .expkey, [km] => (readKey km).map .expkey
  | .enc, [b, rk] => do return .enc (← readBlock b) (← readSchedule rk)
  | .dec, [b, rk] => do return .dec (← readBlock b) (← readSchedule rk)
  | _, _ => none

/-- The request a line spells (R72, R73). -/
def assemble (line : List Char) : Option Instr :=
  match line.span (· != ' ') with
  | (m, rest) => (opOfMnemonic m).bind fun o => requestOfOperands o ((cutAt ',' rest).map trim)

end Sys2Proof.Machine
end

