-- ==== Sys2Proof/Safety.lean ====
section
/-! DEFINITION. The terms in which statements speak of runs: the state after an answer, the frames the core may emit, the
invariant of the machine, and the states from which no step stops (spec R21, R68, R69, R71, R189). -/

namespace Sys2Proof.Machine

/-- `s` with one more response emitted; the configuration and the requests waiting are those of `s`. -/
def State.answering (s : State) (f : Frame) : State := { s with responses := s.responses ++ [f] }

/-- `s` with `f` in front of the requests waiting: the next frame the core takes. -/
def State.asked (s : State) (f : Frame) : State := { s with requests := f :: s.requests }

/-- A core of configuration `c` to which one request has been delivered, and nothing else. -/
def soleRequest (c : Config) (f : Frame) : State := { config := c, requests := [f], responses := [] }

/-- The forms of R69: Q1 (33 bits), Q2 (65) and QS (1025) with `st = 0`, QE (1 bit) with `st = 1`. -/
def IsResponseFrame (f : Frame) : Prop :=
  ((f.len = 33 ∨ f.len = 65 ∨ f.len = 1025) ∧ f.val.getLsbD 0 = false) ∨ (f.len = 1 ∧ f.val.getLsbD 0 = true)

/-- What every step keeps: a configuration the spec admits (R10, R92) and responses of the forms of R69. -/
def State.Inv (s : State) : Prop := s.config.Valid ∧ ∀ f ∈ s.responses, IsResponseFrame f

/-- A frame that spells a request in a core whose `klen` field is `klenW` bits wide (R71). -/
def Spells (klenW : Nat) (f : Frame) : Prop := ∃ i, decodeFrame klenW f = some i

/-- A safe state: every frame waiting spells a request, so that no step of the run stops (R189). -/
def State.Safe (s : State) : Prop := ∀ f ∈ s.requests, Spells s.config.klenW f

end Sys2Proof.Machine
end

