-- ==== Sys2Proof/Certificates/Slice0/Obligations.lean ====
section
/-! DEFINITION. The statements for the provers. A request and a response are written out as frames wherever a statement is
about them, so that a statement fixes the bits and does not lean on the model's own encoder. `s.asked f` is `s` with the
frame `f` as the next request; `s.answering f` is `s` with the response `f` emitted and nothing else changed: the frame of
every operation, since State holds nothing but the configuration, the requests and the responses. -/

open Sys2Proof Sys2Proof.Machine

/-! ## The operations -/

/-- R91. SUBST replaces nibble `i` by the entry of table `i`, for every S-box array. -/
def Obligations.SubstReplacesEachNibble : Prop :=
  ∀ (a : Word) (s : State), ∃ r : Word,
    (∀ i : Fin 8, r.extractLsb' (4 * i.val) 4 = (s.config.sbox[i])[(a.extractLsb' (4 * i.val) 4).toNat]'(BitVec.isLt _)) ∧
    exec (.subst a) s = .next (s.answering ⟨33, r ++ 0#1⟩) ∧
    step (s.asked ⟨35, a ++ 0#3⟩) = .next (s.answering ⟨33, r ++ 0#1⟩)

/-- R100. ROTL11 as the rule's formula, as its concatenation and bit by bit, with its corner cases. -/
def Obligations.Rotl11RotatesLeftByEleven : Prop :=
  ∀ (v : Word) (s : State), ∃ r : Word,
    r = (v <<< 11) ||| (v >>> 21) ∧
    r = v.extractLsb' 0 21 ++ v.extractLsb' 21 11 ∧
    (∀ j < 32, r.getLsbD ((j + 11) % 32) = v.getLsbD j) ∧
    exec (.rotl11 v) s = .next (s.answering ⟨33, r ++ 0#1⟩) ∧
    step (s.asked ⟨35, v ++ 1#3⟩) = .next (s.answering ⟨33, r ++ 0#1⟩) ∧
    (r = v ↔ v = 0x00000000 ∨ v = 0xffffffff) ∧
    (v = 0x00100000 → r = 0x80000000) ∧ (v = 0x00200000 → r = 0x00000001)

/-- R105. GFN is SUBST of the sum modulo 2^32, then ROTL11 of that. -/
def Obligations.GfnAddsSubstitutesRotates : Prop :=
  ∀ (k a : Word) (s : State), ∃ u r : Word,
    exec (.subst (BitVec.ofNat 32 ((a.toNat + k.toNat) % 2 ^ 32))) s = .next (s.answering ⟨33, u ++ 0#1⟩) ∧
    exec (.rotl11 u) s = .next (s.answering ⟨33, r ++ 0#1⟩) ∧
    exec (.gfn k a) s = .next (s.answering ⟨33, r ++ 0#1⟩) ∧
    step (s.asked ⟨67, k ++ a ++ 2#3⟩) = .next (s.answering ⟨33, r ++ 0#1⟩)

/-- R110. FSTEP mixes the round function of the low half into the high half and exchanges the halves, both from the old
halves. -/
def Obligations.FstepMixesAndSwaps : Prop :=
  ∀ (k a1 a0 : Word) (s : State), ∃ f : Word,
    exec (.gfn k a0) s = .next (s.answering ⟨33, f ++ 0#1⟩) ∧
    exec (.fstep k a1 a0) s = .next (s.answering ⟨65, a0 ++ (a1 ^^^ f) ++ 0#1⟩) ∧
    step (s.asked ⟨99, k ++ a1 ++ a0 ++ 3#3⟩) = .next (s.answering ⟨65, a0 ++ (a1 ^^^ f) ++ 0#1⟩)

/-- R111. FFINAL mixes as FSTEP does and does not exchange the halves. -/
def Obligations.FfinalMixesWithoutSwap : Prop :=
  ∀ (k a1 a0 : Word) (s : State), ∃ f : Word,
    exec (.gfn k a0) s = .next (s.answering ⟨33, f ++ 0#1⟩) ∧
    exec (.ffinal k a1 a0) s = .next (s.answering ⟨65, (a1 ^^^ f) ++ a0 ++ 0#1⟩) ∧
    step (s.asked ⟨99, k ++ a1 ++ a0 ++ 4#3⟩) = .next (s.answering ⟨65, (a1 ^^^ f) ++ a0 ++ 0#1⟩)

/-- R120, R122, R123. EXPKEY of 256 bits answers the 32 words of the repetition-then-reversal pattern, `K[j]` being
`km[255-32j : 224-32j]`. -/
def Obligations.ExpkeyExpandsMasterKey : Prop :=
  ∀ (key : MasterKey) (s : State), ∃ sched : BitVec 1024,
    (∀ i : Fin 32, i.val < 24 →
      sched.extractLsb' (992 - 32 * i.val) 32 = key.extractLsb' (224 - 32 * (i.val % 8)) 32) ∧
    (∀ i : Fin 8, sched.extractLsb' (992 - 32 * (24 + i.val)) 32 = key.extractLsb' (224 - 32 * (7 - i.val)) 32) ∧
    exec (.expkey ⟨256, key⟩) s = .next (s.answering ⟨1025, sched ++ 0#1⟩) ∧
    (9 ≤ s.config.klenW →
      step (s.asked ⟨256 + s.config.klenW + 3, key ++ BitVec.ofNat s.config.klenW 256 ++ 5#3⟩) =
        .next (s.answering ⟨1025, sched ++ 0#1⟩))

/-- R121. EXPKEY of material of any other length answers the one bit `st = 1`, whatever the material holds. -/
def Obligations.ExpkeyRejectsOtherLengths : Prop :=
  ∀ (klen : Nat) (km : BitVec klen) (s : State), klen ≠ 256 →
    exec (.expkey ⟨klen, km⟩) s = .next (s.answering ⟨1, 1#1⟩) ∧
    (klen < 2 ^ s.config.klenW →
      step (s.asked ⟨klen + s.config.klenW + 3, km ++ BitVec.ofNat s.config.klenW klen ++ 5#3⟩) =
        .next (s.answering ⟨1, 1#1⟩))

/-- R151. The error response is given to EXPKEY exactly when `klen` is not 256. After it the core is as before it: the
response is the whole effect, and every later request is answered as if the failing one had not been sent. -/
def Obligations.ErrorLeavesNothingBehind : Prop :=
  (∀ (i : Instr) (s : State),
    exec i s = .next (s.answering ⟨1, 1#1⟩) ↔ ∃ km : KeyMaterial, i = .expkey km ∧ km.len ≠ 256) ∧
  (∀ (km : KeyMaterial) (s : State), km.len ≠ 256 →
    ∃ t, exec (.expkey km) s = .next t ∧ t.config = s.config ∧ t.requests = s.requests ∧
      t.responses = s.responses ++ [⟨1, 1#1⟩] ∧
      ∀ i : Instr, ∃ f, exec i s = .next (s.answering f) ∧ exec i t = .next (t.answering f))

/-- R130. ENC is 31 FSTEP requests with `RK[0]` to `RK[30]` and one FFINAL with `RK[31]`, each taking the halves the one
before it answered. The schedule is any 32 words (R136). -/
def Obligations.EncRunsThirtyTwoRounds : Prop :=
  ∀ (blk : Block) (rk : Schedule) (s : State), ∃ (a1 a0 : Nat → Word) (d : Block),
    a1 0 = blk.extractLsb' 32 32 ∧ a0 0 = blk.extractLsb' 0 32 ∧
    (∀ j : Fin 31, exec (.fstep rk[j.val] (a1 j.val) (a0 j.val)) s =
      .next (s.answering ⟨65, a1 (j.val + 1) ++ a0 (j.val + 1) ++ 0#1⟩)) ∧
    exec (.ffinal rk[31] (a1 31) (a0 31)) s = .next (s.answering ⟨65, d ++ 0#1⟩) ∧
    exec (.enc blk rk) s = .next (s.answering ⟨65, d ++ 0#1⟩) ∧
    (∀ sched : BitVec 1024, (∀ i : Fin 32, sched.extractLsb' (992 - 32 * i.val) 32 = rk[i]) →
      step (s.asked ⟨1091, blk ++ sched ++ 6#3⟩) = .next (s.answering ⟨65, d ++ 0#1⟩))

/-- R131. DEC is 31 FSTEP requests with `RK[31]` down to `RK[1]` and one FFINAL with `RK[0]`. The schedule is any
32 words (R136). -/
def Obligations.DecRunsTheRoundsBackwards : Prop :=
  ∀ (blk : Block) (rk : Schedule) (s : State), ∃ (b1 b0 : Nat → Word) (d : Block),
    b1 0 = blk.extractLsb' 32 32 ∧ b0 0 = blk.extractLsb' 0 32 ∧
    (∀ j : Fin 31, exec (.fstep rk[31 - j.val] (b1 j.val) (b0 j.val)) s =
      .next (s.answering ⟨65, b1 (j.val + 1) ++ b0 (j.val + 1) ++ 0#1⟩)) ∧
    exec (.ffinal rk[0] (b1 31) (b0 31)) s = .next (s.answering ⟨65, d ++ 0#1⟩) ∧
    exec (.dec blk rk) s = .next (s.answering ⟨65, d ++ 0#1⟩) ∧
    (∀ sched : BitVec 1024, (∀ i : Fin 32, sched.extractLsb' (992 - 32 * i.val) 32 = rk[i]) →
      step (s.asked ⟨1091, blk ++ sched ++ 7#3⟩) = .next (s.answering ⟨65, d ++ 0#1⟩))

/-- The worked examples and corner cases of R91, R105, R110 and R111, the spec's own derivations from the table of R90
("[derived: from rules R90 and R91]" and the like), and the worked examples of R100; the table is general knowledge (log entry 2). -/
def Obligations.WorkedExamplesOfTheTransforms : Prop :=
  ∀ s : State, s.config.sbox = magmaSBox →
    exec (.subst 0xfdb97531) s = .next (s.answering ⟨33, 0x2a196f34#32 ++ 0#1⟩) ∧
    exec (.subst 0x00000000) s = .next (s.answering ⟨33, 0x1857cb6c#32 ++ 0#1⟩) ∧
    exec (.subst 0xffffffff) s = .next (s.answering ⟨33, 0x270cb0f1#32 ++ 0#1⟩) ∧
    exec (.rotl11 0x12345678) s = .next (s.answering ⟨33, 0xa2b3c091#32 ++ 0#1⟩) ∧
    exec (.rotl11 0x00000001) s = .next (s.answering ⟨33, 0x00000800#32 ++ 0#1⟩) ∧
    exec (.rotl11 0x80000000) s = .next (s.answering ⟨33, 0x00000400#32 ++ 0#1⟩) ∧
    exec (.gfn 0x87654321 0xfedcba98) s = .next (s.answering ⟨33, 0xfdcbc20c#32 ++ 0#1⟩) ∧
    exec (.gfn 0x00000000 0x00000000) s = .next (s.answering ⟨33, 0xbe5b60c2#32 ++ 0#1⟩) ∧
    exec (.gfn 0xffffffff 0x00000001) s = .next (s.answering ⟨33, 0xbe5b60c2#32 ++ 0#1⟩) ∧
    exec (.gfn 0x80000000 0x80000000) s = .next (s.answering ⟨33, 0xbe5b60c2#32 ++ 0#1⟩) ∧
    exec (.fstep 0xffeeddcc 0xfedcba98 0x76543210) s = .next (s.answering ⟨65, 0x7654321028da3b14#64 ++ 0#1⟩) ∧
    exec (.fstep 0 0 0) s = .next (s.answering ⟨65, 0x00000000be5b60c2#64 ++ 0#1⟩) ∧
    exec (.ffinal 0xffeeddcc 0x239a4577 0xc2d8ca3d) s = .next (s.answering ⟨65, 0x4ee901e5c2d8ca3d#64 ++ 0#1⟩) ∧
    exec (.ffinal 0 0 0) s = .next (s.answering ⟨65, 0xbe5b60c200000000#64 ++ 0#1⟩)

/-- The known-answer vector of R120, R130 and R131, which the source prints, and the all-zero case of R130, on a core
that holds the table of R90 (general knowledge: log entry 2). -/
def Obligations.KnownAnswerVector : Prop :=
  ∀ (rk : Schedule) (s : State), s.config.sbox = magmaSBox →
    rk =
    #v[0xffeeddcc, 0xbbaa9988, 0x77665544, 0x33221100, 0xf0f1f2f3, 0xf4f5f6f7, 0xf8f9fafb, 0xfcfdfeff,
       0xffeeddcc, 0xbbaa9988, 0x77665544, 0x33221100, 0xf0f1f2f3, 0xf4f5f6f7, 0xf8f9fafb, 0xfcfdfeff,
       0xffeeddcc, 0xbbaa9988, 0x77665544, 0x33221100, 0xf0f1f2f3, 0xf4f5f6f7, 0xf8f9fafb, 0xfcfdfeff,
       0xfcfdfeff, 0xf8f9fafb, 0xf4f5f6f7, 0xf0f1f2f3, 0x33221100, 0x77665544, 0xbbaa9988, 0xffeeddcc] →
    (∃ sched : BitVec 1024,
      exec (.expkey ⟨256, 0xffeeddccbbaa99887766554433221100f0f1f2f3f4f5f6f7f8f9fafbfcfdfeff⟩) s =
        .next (s.answering ⟨1025, sched ++ 0#1⟩) ∧
      ∀ i : Fin 32, sched.extractLsb' (992 - 32 * i.val) 32 = rk[i]) ∧
    exec (.enc 0xfedcba9876543210 rk) s = .next (s.answering ⟨65, 0x4ee901e5c2d8ca3d#64 ++ 0#1⟩) ∧
    exec (.dec 0x4ee901e5c2d8ca3d rk) s = .next (s.answering ⟨65, 0xfedcba9876543210#64 ++ 0#1⟩) ∧
    exec (.enc 0 (Vector.replicate 32 0)) s = .next (s.answering ⟨65, 0x78b6bd4a81726659#64 ++ 0#1⟩)

/-! ## The cipher -/

/-- R132. Decryption undoes encryption, for every block and the schedule of every key, and, by the spec's own inference
there ("[derived: from rules R130, R131, R112, R113]", "[derived: same rules]"), for every 32 words as a schedule and
every S-box array, bijective or not, and in the converse order. -/
def Obligations.DecryptionUndoesEncryption : Prop :=
  ∀ (blk : Block) (rk : Schedule) (s : State),
    (∃ c : Block, exec (.enc blk rk) s = .next (s.answering ⟨65, c ++ 0#1⟩) ∧
      exec (.dec c rk) s = .next (s.answering ⟨65, blk ++ 0#1⟩)) ∧
    (∃ p : Block, exec (.dec blk rk) s = .next (s.answering ⟨65, p ++ 0#1⟩) ∧
      exec (.enc p rk) s = .next (s.answering ⟨65, blk ++ 0#1⟩))

/-- R132, the contract the source states, from end to end and in frames: the `sched` field of the answer to EXPKEY,
copied unchanged into an ENC and a DEC request (R67, R69), gives back the block, for every key and block. What R132 infers
beyond the contract is DecryptionUndoesEncryption. -/
def Obligations.KeyedRoundTripInFrames : Prop :=
  ∀ (key : MasterKey) (blk : Block) (s : State), 9 ≤ s.config.klenW →
    ∃ (sched : BitVec 1024) (c : Block),
      step (s.asked ⟨256 + s.config.klenW + 3, key ++ BitVec.ofNat s.config.klenW 256 ++ 5#3⟩) =
        .next (s.answering ⟨1025, sched ++ 0#1⟩) ∧
      step (s.asked ⟨1091, blk ++ sched ++ 6#3⟩) = .next (s.answering ⟨65, c ++ 0#1⟩) ∧
      step (s.asked ⟨1091, c ++ sched ++ 7#3⟩) = .next (s.answering ⟨65, blk ++ 0#1⟩)

/-- R133, its last sentence by the spec's own inference ("[derived: from rules R130, R131, R113]"). The traces begin
with the block's halves, go on by FSTEP's rule with the round keys in rising and in falling order, end in the result,
and the trace of the decryption is that of the encryption backwards with the halves exchanged. -/
def Obligations.DecryptionTraceMirrorsEncryption : Prop :=
  ∀ (sbox : SBox) (rk : Schedule) (a b : Block),
    encTrace sbox rk a 0 = ⟨a.extractLsb' 32 32, a.extractLsb' 0 32⟩ ∧
    (∀ j : Fin 31, encTrace sbox rk a (j.val + 1) =
      ⟨(encTrace sbox rk a j.val).a0,
        (encTrace sbox rk a j.val).a1 ^^^ roundFunction sbox rk[j.val] (encTrace sbox rk a j.val).a0⟩) ∧
    encryptBlock sbox a rk = ((encTrace sbox rk a 31).a1 ^^^ roundFunction sbox rk[31] (encTrace sbox rk a 31).a0) ++
      (encTrace sbox rk a 31).a0 ∧
    decTrace sbox rk b 0 = ⟨b.extractLsb' 32 32, b.extractLsb' 0 32⟩ ∧
    (∀ j : Fin 31, decTrace sbox rk b (j.val + 1) =
      ⟨(decTrace sbox rk b j.val).a0,
        (decTrace sbox rk b j.val).a1 ^^^ roundFunction sbox rk[31 - j.val] (decTrace sbox rk b j.val).a0⟩) ∧
    decryptBlock sbox b rk = ((decTrace sbox rk b 31).a1 ^^^ roundFunction sbox rk[0] (decTrace sbox rk b 31).a0) ++
      (decTrace sbox rk b 31).a0 ∧
    (b = encryptBlock sbox a rk →
      (∀ j, 1 ≤ j → j ≤ 31 → decTrace sbox rk b j = ⟨(encTrace sbox rk a (32 - j)).a0, (encTrace sbox rk a (32 - j)).a1⟩) ∧
      decTrace sbox rk b 0 =
        ⟨(encTrace sbox rk a 31).a1 ^^^ roundFunction sbox rk[31] (encTrace sbox rk a 31).a0, (encTrace sbox rk a 31).a0⟩)

/-- R134, the spec's own inference ("[derived: from rules R130 and R131]"). DEC is ENC with the schedule read backwards,
and DEC with the schedule reversed is ENC. -/
def Obligations.DecIsEncWithScheduleReversed : Prop :=
  ∀ (b : Block) (rk rev : Schedule) (s : State), (∀ i : Fin 32, rev[i.val] = rk[31 - i.val]) →
    (∃ d : Block, exec (.dec b rk) s = .next (s.answering ⟨65, d ++ 0#1⟩) ∧
      exec (.enc b rev) s = .next (s.answering ⟨65, d ++ 0#1⟩)) ∧
    (∃ d : Block, exec (.dec b rev) s = .next (s.answering ⟨65, d ++ 0#1⟩) ∧
      exec (.enc b rk) s = .next (s.answering ⟨65, d ++ 0#1⟩))

/-- R135, the spec's own inference ("[derived: from rules R134 and R124]"). Under a schedule that reads the same both
ways ENC and DEC are one function and its own inverse; EXPKEY answers such a schedule exactly when `K[j] = K[7-j]` for
`j` in 0 to 3. -/
def Obligations.PalindromicScheduleMakesAnInvolution : Prop :=
  (∀ (rk : Schedule) (b : Block) (s : State), (∀ i : Fin 32, rk[i.val] = rk[31 - i.val]) →
    ∃ d : Block, exec (.enc b rk) s = .next (s.answering ⟨65, d ++ 0#1⟩) ∧
      exec (.dec b rk) s = .next (s.answering ⟨65, d ++ 0#1⟩) ∧
      exec (.enc d rk) s = .next (s.answering ⟨65, b ++ 0#1⟩)) ∧
  (∀ (key : MasterKey) (s : State), ∃ sched : BitVec 1024,
    exec (.expkey ⟨256, key⟩) s = .next (s.answering ⟨1025, sched ++ 0#1⟩) ∧
    ((∀ i : Fin 32, sched.extractLsb' (992 - 32 * i.val) 32 = sched.extractLsb' (992 - 32 * (31 - i.val)) 32) ↔
      ∀ j : Fin 4, key.extractLsb' (224 - 32 * j.val) 32 = key.extractLsb' (224 - 32 * (7 - j.val)) 32))

/-- R112, the spec's own inference ("[derived: from rules R110 and R111]"). FFINAL answers FSTEP's pair with the halves
exchanged. -/
def Obligations.FfinalIsFstepWithHalvesExchanged : Prop :=
  ∀ (k a1 a0 : Word) (s : State), ∃ x y : Word,
    exec (.fstep k a1 a0) s = .next (s.answering ⟨65, x ++ y ++ 0#1⟩) ∧
    exec (.ffinal k a1 a0) s = .next (s.answering ⟨65, y ++ x ++ 0#1⟩)

/-- R113, the spec's own inference ("[derived: from rule R110]"). A step is undone with the same round key, whatever the
S-box array: FSTEP of the exchanged pair answers the original pair exchanged. -/
def Obligations.FstepUndoneByItself : Prop :=
  ∀ (k a1 a0 : Word) (s : State), ∃ x y f : Word,
    exec (.fstep k a1 a0) s = .next (s.answering ⟨65, x ++ y ++ 0#1⟩) ∧
    exec (.gfn k x) s = .next (s.answering ⟨33, f ++ 0#1⟩) ∧
    a0 = x ∧ a1 = y ^^^ f ∧
    exec (.fstep k y x) s = .next (s.answering ⟨65, x ++ a1 ++ 0#1⟩)

/-- R107, the spec's own inference ("[derived: from rules R105, R93, R102]"). The round function depends on its operands
through their sum alone, and for a fixed key it is a bijection when the tables are (R92). -/
def Obligations.GfnDependsOnSumAndIsBijective : Prop :=
  (∀ (k a : Word) (s : State), ∃ r : Word,
    exec (.gfn k a) s = .next (s.answering ⟨33, r ++ 0#1⟩) ∧
    exec (.gfn a k) s = .next (s.answering ⟨33, r ++ 0#1⟩) ∧
    exec (.gfn 0 (BitVec.ofNat 32 ((a.toNat + k.toNat) % 2 ^ 32))) s = .next (s.answering ⟨33, r ++ 0#1⟩)) ∧
  (∀ (k r : Word) (s : State), s.config.sbox.IsBijective →
    ∃! a : Word, exec (.gfn k a) s = .next (s.answering ⟨33, r ++ 0#1⟩))

/-- R93, its inverse by the spec's own inference ("[derived: from rules R91 and R92]"). SUBST is a bijection when each
table is, and the operand that gives `r` has in nibble `i` the index at which table `i` holds nibble `i` of `r`. -/
def Obligations.SubstIsBijective : Prop :=
  ∀ (r : Word) (s : State), s.config.sbox.IsBijective →
    ∃ a : Word, exec (.subst a) s = .next (s.answering ⟨33, r ++ 0#1⟩) ∧
      (∀ i : Fin 8, ∀ v : Fin 16, (s.config.sbox[i])[v] = r.extractLsb' (4 * i.val) 4 →
        a.extractLsb' (4 * i.val) 4 = BitVec.ofNat 4 v.val) ∧
      ∀ b : Word, exec (.subst b) s = .next (s.answering ⟨33, r ++ 0#1⟩) → b = a

/-- R94, the spec's own inference ("[derived: from rule R91]"). SUBST of a word of eight equal nibbles answers a column
of the array, and SUBST of one nibble in an else zero word answers its entry, the other nibbles being entries 0. -/
def Obligations.SboxIsReadThroughSubst : Prop :=
  ∀ (v : Fin 16) (s : State),
    (∃ c : Word, exec (.subst (BitVec.ofNat 32 (v.val * 0x11111111))) s = .next (s.answering ⟨33, c ++ 0#1⟩) ∧
      ∀ i : Fin 8, c.extractLsb' (4 * i.val) 4 = (s.config.sbox[i])[v]) ∧
    (∀ i : Fin 8, ∃ c : Word, exec (.subst (BitVec.ofNat 32 (v.val * 2 ^ (4 * i.val)))) s =
        .next (s.answering ⟨33, c ++ 0#1⟩) ∧
      c.extractLsb' (4 * i.val) 4 = (s.config.sbox[i])[v] ∧
      ∀ j : Fin 8, j ≠ i → c.extractLsb' (4 * j.val) 4 = (s.config.sbox[j])[0])

/-- R101, and R102, the spec's own inference ("[derived: from rule R100]"). ROTL11 is a bijection undone by the left
rotation by 21, the case `n = 11` of R101's test; `m` of them are the left rotation by `11m mod 32`, so four are the
rotation by 12 and are not the identity, and the identity comes back exactly at the multiples of 32. -/
def Obligations.Rotl11HasOrderThirtyTwo : Prop :=
  (∀ (v : Word) (s : State), exec (.rotl11 v) s = .next (s.answering ⟨33, rotateLeft11 v ++ 0#1⟩)) ∧
  (∀ v : Word, (rotateLeft11 v).rotateLeft 21 = v ∧ rotateLeft11 (v.rotateLeft 21) = v ∧ v.rotateLeft 21 = v.rotateRight 11) ∧
  (∀ (n : Nat) (v : Word), n ≤ 32 → (v.rotateLeft n).rotateLeft (32 - n) = v) ∧
  (∀ (m : Nat) (v : Word), rotateLeft11^[m] v = v.rotateLeft (11 * m % 32)) ∧
  (∀ v : Word, rotateLeft11^[4] v = v.rotateLeft 12) ∧ (∃ v : Word, rotateLeft11^[4] v ≠ v) ∧
  (∀ m : Nat, (∀ v : Word, rotateLeft11^[m] v = v) ↔ 32 ∣ m)

/-- R124 (a), the spec's own inference ("[derived: from rule R120]"). The first eight words of the answer to EXPKEY are
the key, so that two keys with one answer are one key. -/
def Obligations.ExpkeyIsInjective : Prop :=
  ∀ (key key' : MasterKey) (s : State), ∃ sched sched' : BitVec 1024,
    exec (.expkey ⟨256, key⟩) s = .next (s.answering ⟨1025, sched ++ 0#1⟩) ∧
    exec (.expkey ⟨256, key'⟩) s = .next (s.answering ⟨1025, sched' ++ 0#1⟩) ∧
    sched.extractLsb' 768 256 = key ∧ (sched = sched' → key = key')

/-- R30. ROTL11 and EXPKEY do not touch the S-box array: they answer alike whatever it holds. -/
def Obligations.Rotl11AndExpkeyReadNoSbox : Prop :=
  ∀ (v : Word) (km : KeyMaterial) (s t : State),
    (∃ f, exec (.rotl11 v) s = .next (s.answering f) ∧ exec (.rotl11 v) t = .next (t.answering f)) ∧
    (∃ f, exec (.expkey km) s = .next (s.answering f) ∧ exec (.expkey km) t = .next (t.answering f))

/-! ## Encoding -/

/-- R60 to R67. Reading the frame of a request gives the request back, every operand at every value, at every width of
the `klen` field that holds the length. -/
def Obligations.DecodeOfEncode : Prop :=
  ∀ (klenW : Nat) (i : Instr), i.wf klenW = true → decodeFrame klenW (encode klenW i) = some i

/-- R60 to R67, R71. A frame that spells a request spells one that has a frame, and is that frame, bit for bit. -/
def Obligations.EncodeOfDecode : Prop :=
  ∀ (klenW : Nat) (f : Frame) (i : Instr), decodeFrame klenW f = some i → i.wf klenW = true ∧ encode klenW i = f

/-- R71. The operation code, and for EXPKEY the `klen` field, give the length of a frame; a bit vector of that length
spells a request, and any other is refused by the decoder. That a step on such a bit vector stops, by the name
`spellsNoRequest`, and does not skip it is the model's choice (log entry 6, DEDUCED). -/
def Obligations.LengthAloneDecidesWhatSpellsARequest : Prop :=
  ∀ (f : Frame) (s : State),
    let op := (f.val.extractLsb' 0 3).toNat
    let fits := (op ≤ 1 ∧ f.len = 35) ∨ (op = 2 ∧ f.len = 67) ∨ ((op = 3 ∨ op = 4) ∧ f.len = 99) ∨
      (op = 5 ∧ f.len = 3 + s.config.klenW + (f.val.extractLsb' 3 s.config.klenW).toNat) ∨ (6 ≤ op ∧ f.len = 1091)
    (fits → ∃ i, decodeFrame s.config.klenW f = some i) ∧
    (¬ fits → decodeFrame s.config.klenW f = none ∧ step (s.asked f) = .refused .spellsNoRequest)

/-- R61, R63 to R67. Words written out from the formats decode to the requests they stand for. -/
def Obligations.WrittenOutWordsDecode : Prop :=
  decodeFrame 16 ⟨35, 0x7edcba988⟩ = some (.subst 0xfdb97531) ∧
  decodeFrame 16 ⟨35, 0x091a2b3c1⟩ = some (.rotl11 0x12345678) ∧
  decodeFrame 16 ⟨67, 0x43b2a190ff6e5d4c2⟩ = some (.gfn 0x87654321 0xfedcba98) ∧
  decodeFrame 16 ⟨99, 0x7ff76ee67f6e5d4c3b2a19083⟩ = some (.fstep 0xffeeddcc 0xfedcba98 0x76543210) ∧
  decodeFrame 16 ⟨99, 0x7ff76ee67f6e5d4c3b2a19084⟩ = some (.ffinal 0xffeeddcc 0xfedcba98 0x76543210) ∧
  decodeFrame 16 ⟨19, 0x00005⟩ = some (.expkey ⟨0, 0⟩) ∧
  decodeFrame 16 ⟨27, 0x7f80045⟩ = some (.expkey ⟨8, 0xff⟩)

/-- R61, R69. Every request is answered by a response that its caller, who knows the operation and reads the format R61
gives it, reads back. -/
def Obligations.CallerReadsBackTheResponse : Prop :=
  ∀ (i : Instr) (s : State), ∃ r : Response,
    exec i s = .next (s.answering (encodeResponse r)) ∧ decodeResponse i.op (encodeResponse r) = some r

/-- R68, R69. The response has the length of its format, and its bit 0 is 1 exactly for EXPKEY with `klen` other than
256. -/
def Obligations.ResponseLengthAndStatus : Prop :=
  ∀ (i : Instr) (s : State), ∃ f : Frame, exec i s = .next (s.answering f) ∧
    (f.val.getLsbD 0 = true ↔ ∃ km : KeyMaterial, i = .expkey km ∧ km.len ≠ 256) ∧
    f.len = match i with
      | .subst _ => 33
      | .rotl11 _ => 33
      | .gfn _ _ => 33
      | .fstep _ _ _ => 65
      | .ffinal _ _ _ => 65
      | .expkey km => if km.len = 256 then 1025 else 1
      | .enc _ _ => 65
      | .dec _ _ => 65

/-- R10. Any width of the `klen` field gives the same answer to every request that both can express. -/
def Obligations.KlenWidthDoesNotMatter : Prop :=
  ∀ (i : Instr) (s t : State), s.config.sbox = t.config.sbox →
    i.wf s.config.klenW = true → i.wf t.config.klenW = true →
    ∃ f : Frame, step (s.asked (encode s.config.klenW i)) = .next (s.answering f) ∧
      step (t.asked (encode t.config.klenW i)) = .next (t.answering f)

/-- R72, R73. The text of every request, printed as R72 and R73 print it, is read back as the request (text as a list of
characters, and its reader, are the model's: log entry 11). -/
def Obligations.AssembleOfRequestText : Prop :=
  ∀ i : Instr, assemble (requestText i) = some i

/-- R46. The flat address `16*i + v`, equally `i[2:0] || v[3:0]`, of the SBOX address space holds `SBOX[i][v]`. -/
def Obligations.FlatAddressHoldsTheEntry : Prop :=
  ∀ (sbox : SBox) (i : Fin 8) (v : Fin 16),
    sboxReadFlat sbox (BitVec.ofNat 7 (16 * i.val + v.val)) = sbox[i][v] ∧
    sboxReadFlat sbox (BitVec.ofNat 3 i.val ++ BitVec.ofNat 4 v.val) = sbox[i][v]

/-! ## The machine -/

/-- R20. A step takes the frame that is next and, where it decodes, is the meaning of that request, at the state without
the frame; with no request waiting it changes nothing (the model's choice, log entry 5). -/
def Obligations.StepRunsTheDecodedRequest : Prop :=
  (∀ (s : State) (f : Frame) (i : Instr), decodeFrame s.config.klenW f = some i → step (s.asked f) = exec i s) ∧
  (∀ s : State, s.requests = [] → step s = .next s)

/-- The opcode table's numbering (log entry 9): a step on a table word is the meaning of what the decoder reads from it.
-/
def Obligations.TableWordIsTheNextRequest : Prop :=
  ∀ (s : State) (nbits w : Nat) (i : Instr), s.config.klenW = 16 → decodeTableWord nbits w = some i →
    step (s.withFetchWord nbits w) = exec i s

/-- R31. After reset the array holds the table of R90 (log entry 2), whose every row is a permutation of 0 to 15 (R92),
"and at every other time": no step changes it. -/
def Obligations.ResetHoldsTheTables : Prop :=
  State.reset.config.sbox =
    #v[#v[12, 4, 6, 2, 10, 5, 11, 9, 14, 8, 13, 7, 0, 3, 15, 1], #v[6, 8, 2, 3, 9, 10, 5, 12, 1, 14, 4, 7, 11, 13, 0, 15],
       #v[11, 3, 5, 8, 2, 15, 10, 13, 14, 1, 7, 4, 12, 9, 6, 0], #v[12, 8, 2, 1, 13, 4, 15, 6, 7, 0, 10, 5, 3, 14, 9, 11],
       #v[7, 15, 5, 10, 8, 1, 6, 13, 0, 9, 3, 14, 11, 4, 2, 12], #v[5, 13, 15, 6, 9, 2, 12, 10, 11, 7, 8, 1, 4, 3, 14, 0],
       #v[8, 14, 2, 5, 6, 9, 1, 12, 15, 4, 11, 0, 13, 10, 3, 7], #v[1, 7, 14, 13, 0, 5, 8, 3, 4, 15, 10, 6, 9, 12, 11, 2]] ∧
  (∀ i : Fin 8, ((State.reset.config.sbox[i]).toList.map BitVec.toNat).Perm (List.range 16)) ∧
  (∀ s t : State, step s = .next t → t.config.sbox = s.config.sbox)

/-- The state after reset meets the invariant: R92 of the tables, R10 of the field width, and no response yet. -/
def Obligations.ResetMeetsInvariant : Prop := State.reset.Inv

/-- R69, R92. Every step keeps the invariant: the configuration is one the spec admits, and every response emitted has
one of the forms Q1, Q2, QS with `st = 0` or QE with `st = 1`. -/
def Obligations.StepKeepsInvariant : Prop :=
  ∀ s t : State, s.Inv → step s = .next t → t.Inv

/-- R21. No step writes the S-box array, or anything but the two queues: a step that goes on takes at most the oldest
request, emits at most one response behind those already there, and takes exactly as many as it answers. The queues, and
that a step with no request waiting changes nothing, are the model's choice (log entries 4 and 5). -/
def Obligations.StepWritesOnlyTheQueues : Prop :=
  ∀ s t : State, step s = .next t → t.config = s.config ∧
    ((s.requests = [] ∧ t.requests = [] ∧ t.responses = s.responses) ∨
      (∃ f g, s.requests = f :: t.requests ∧ t.responses = s.responses ++ [g]))

/-- R29, R106, and the first sentence of R49. The response to a request is a function of the request and of the S-box array, "and of nothing
else": two states that agree on the array answer alike, whatever else they hold. -/
def Obligations.ResponseDependsOnRequestAndSboxAlone : Prop :=
  ∀ (i : Instr) (s t : State), s.config.sbox = t.config.sbox →
    ∃ f, exec i s = .next (s.answering f) ∧ exec i t = .next (t.answering f)

/-- R49, R50. The order of two requests changes the order of their answers and nothing else; that answers leave in the
order of the requests is the model's choice (log entry 4). -/
def Obligations.RequestsCommute : Prop :=
  ∀ (s : State) (f g : Frame), Spells s.config.klenW f → Spells s.config.klenW g →
    ∃ x y : Frame,
      core.run 2 ((s.asked g).asked f) = .next ((s.answering x).answering y) ∧
      core.run 2 ((s.asked f).asked g) = .next ((s.answering y).answering x)

/-- R189. Every request is answered, by exactly one response, in as many steps as there are requests; the `j`-th answer
is the one a core that was asked nothing else gives the `j`-th request (R49, R62). That answers leave in the order of
the requests is the model's choice (log entry 4). -/
def Obligations.EveryRequestIsAnsweredOnce : Prop :=
  ∀ s : State, s.Safe → ∃ rs : List Frame,
    rs.length = s.requests.length ∧
    core.run s.requests.length s = .next { s with requests := [], responses := s.responses ++ rs } ∧
    ∀ (j : Nat) (h : j < s.requests.length) (h' : j < rs.length),
      step (soleRequest s.config s.requests[j]) = .next { config := s.config, requests := [], responses := [rs[j]] }

/-- R152, R189. No operation can fail, so a step stops only on a frame that spells no request. That it stops there, by
that name, is the model's choice (log entry 6, DEDUCED), and so is that a step with no request waiting goes on (log entry
5, DESIGN CHOICE). -/
def Obligations.OnlyUnspelledFramesStop : Prop :=
  ∀ s : State, (∃ t, step s = .next t) ∨
    (step s = .refused .spellsNoRequest ∧
      ∃ f rest, s.requests = f :: rest ∧ decodeFrame s.config.klenW f = none)
end

