-- ==== Sys2Proof/Laws/Bits.lean ====
section
/-! SUPPORT. Reading a field of a concatenation. Where the width of a concatenation is written as a literal these are used
by `rw` or as terms; `simp` compares the widths as written and does not see that they agree. -/

namespace Sys2Proof

/-- A field that lies wholly in the upper part. -/
theorem extract_append_high {n m : Nat} (x : BitVec n) (y : BitVec m) (lo w : Nat) (h : m ≤ lo) :
    (x ++ y).extractLsb' lo w = x.extractLsb' (lo - m) w := by
  apply BitVec.eq_of_getLsbD_eq
  intro j hj
  simp only [BitVec.getLsbD_extractLsb', BitVec.getLsbD_append]
  simp [show ¬ lo + j < m by omega, show lo + j - m = lo - m + j by omega]

/-- A field that lies wholly in the lower part. -/
theorem extract_append_low {n m : Nat} (x : BitVec n) (y : BitVec m) (lo w : Nat) (h : lo + w ≤ m) :
    (x ++ y).extractLsb' lo w = y.extractLsb' lo w := by
  apply BitVec.eq_of_getLsbD_eq
  intro j hj
  simp only [BitVec.getLsbD_extractLsb', BitVec.getLsbD_append]
  by_cases hw : j < w
  · simp [show lo + j < m by omega]
  · simp [hw]

/-- A field of a field. -/
theorem extract_extract {n : Nat} (x : BitVec n) (lo w lo' w' : Nat) (h : lo' + w' ≤ w) :
    (x.extractLsb' lo w).extractLsb' lo' w' = x.extractLsb' (lo + lo') w' := by
  apply BitVec.eq_of_getLsbD_eq
  intro j hj
  simp [BitVec.getLsbD_extractLsb', show lo' + j < w by omega, Nat.add_assoc]

/-- Two adjacent fields together are one field. -/
theorem extract_append_extract {n : Nat} (x : BitVec n) (lo w w' : Nat) :
    x.extractLsb' (lo + w) w' ++ x.extractLsb' lo w = x.extractLsb' lo (w' + w) := by
  apply BitVec.eq_of_getLsbD_eq
  intro j hj
  simp only [BitVec.getLsbD_extractLsb', BitVec.getLsbD_append]
  by_cases h : j < w
  · simp [h, hj]
  · simp [h, hj, show j - w < w' by omega, show lo + w + (j - w) = lo + j by omega]

/-- Bit strings are equal when their lengths and their values as integers are. -/
theorem Bits.ext_toNat {a b : Bits} (hl : a.len = b.len) (hv : a.val.toNat = b.val.toNat) : a = b := by
  cases a with
  | mk n x =>
    cases b with
    | mk m y =>
      cases hl
      exact congrArg (Bits.mk n) (BitVec.eq_of_toNat_eq hv)

/-- The field of a bit string, without the record. -/
@[simp] theorem Bits.field_mk (n : Nat) (x : BitVec n) (lo w : Nat) : (Bits.mk n x).field lo w = x.extractLsb' lo w := rfl

end Sys2Proof
end

