-- ==== Sys2Proof/Laws/Decode.lean ====
section
/-! SUPPORT. The small lemmas of the decoder and the encoder: operation codes, the words of a schedule field, the status
bit. -/

namespace Sys2Proof

/-- Every code is read back as its operation. -/
@[simp] theorem opOfCode_code (o : Op) : opOfCode o.code = o := by cases o <;> rfl

/-- Every operation read from a code has that code: all eight are assigned (R61, R71). -/
@[simp] theorem code_opOfCode (b : BitVec 3) : (opOfCode b).code = b := by
  revert b; decide

/-- The integer that a list of words makes, the first most significant. -/
theorem getLsbD_foldl_words (l : List Word) (n : Nat) (hn : n < 1024) :
    (l.foldl (fun (acc : BitVec 1024) w => (acc <<< 32) ||| w.setWidth 1024) 0#1024).getLsbD n =
      (l.reverse.getD (n / 32) 0).getLsbD (n % 32) := by
  induction l using List.reverseRecOn generalizing n with
  | nil => simp
  | append_singleton l w ih =>
    rw [List.foldl_append]
    simp only [List.foldl_cons, List.foldl_nil, List.reverse_append, List.reverse_cons, List.reverse_nil,
      List.nil_append, List.singleton_append, BitVec.getLsbD_or, BitVec.getLsbD_shiftLeft, BitVec.getLsbD_setWidth]
    by_cases h : n < 32
    · simp [h, hn, Nat.div_eq_of_lt h, Nat.mod_eq_of_lt h]
    · rw [ih (n - 32) (by omega), show n / 32 = (n - 32) / 32 + 1 by omega, show n % 32 = (n - 32) % 32 by omega]
      simp [h, hn, BitVec.getLsbD_of_ge w n (by omega)]

/-- Bit `n` of a packed schedule is a bit of `RK[31 - n/32]` (R67). -/
theorem getLsbD_packSchedule (rk : Schedule) (n : Nat) (hn : n < 1024) :
    (packSchedule rk).getLsbD n = (rk[31 - n / 32]'(by omega)).getLsbD (n % 32) := by
  rw [packSchedule, getLsbD_foldl_words _ _ hn]
  have h : n / 32 < rk.toList.reverse.length := by simp; omega
  rw [List.getD_eq_getElem _ _ h]
  simp

/-- `RK[i]` stands in bits `1023-32i : 992-32i` of a packed schedule (R67, R69). -/
theorem extract_packSchedule (rk : Schedule) (i : Nat) (hi : i < 32) :
    (packSchedule rk).extractLsb' (992 - 32 * i) 32 = rk[i] := by
  apply BitVec.eq_of_getLsbD_eq
  intro j hj
  have e : 31 - (992 - 32 * i + j) / 32 = i := by omega
  have e' : (992 - 32 * i + j) % 32 = j := by omega
  simp [hj, getLsbD_packSchedule _ _ (show 992 - 32 * i + j < 1024 by omega), e, e']

@[simp] theorem unpackSchedule_packSchedule (rk : Schedule) : unpackSchedule (packSchedule rk) = rk := by
  apply Vector.ext
  intro i hi
  simp [unpackSchedule, extract_packSchedule _ _ hi]

@[simp] theorem packSchedule_unpackSchedule (b : BitVec 1024) : packSchedule (unpackSchedule b) = b := by
  apply BitVec.eq_of_getLsbD_eq
  intro n hn
  have e : 992 - 32 * (31 - n / 32) + n % 32 = n := by omega
  simp [getLsbD_packSchedule _ _ hn, unpackSchedule, Nat.mod_lt, e]

/-- A schedule is packed into a field exactly when the field holds its words (R67). -/
theorem eq_packSchedule (b : BitVec 1024) (rk : Schedule) (h : ∀ i : Fin 32, b.extractLsb' (992 - 32 * i.val) 32 = rk[i]) :
    b = packSchedule rk := by
  have hu : unpackSchedule b = rk := by
    apply Vector.ext
    intro i hi
    rw [unpackSchedule, Vector.getElem_ofFn]
    exact h ⟨i, hi⟩
  rw [← hu, packSchedule_unpackSchedule]

/-- The operation of a frame that ends in a code. -/
theorem requestOp_append {n : Nat} (x : BitVec n) (o : Op) : requestOp ⟨n + 3, x ++ o.code⟩ = o := by
  have h : (x ++ o.code).extractLsb' 0 3 = o.code :=
    (extract_append_low x o.code 0 3 (by decide)).trans BitVec.extractLsb'_eq_self
  simp [requestOp, h]

/-- The `klen` field of a frame of format KM. -/
theorem requestKlen_append {n klenW : Nat} (x : BitVec n) (k : BitVec klenW) (c : BitVec 3) :
    requestKlen klenW ⟨n + klenW + 3, x ++ k ++ c⟩ = k.toNat := by
  have h : (x ++ k ++ c).extractLsb' 3 klenW = k := by
    rw [extract_append_high _ _ _ _ (by decide), extract_append_low _ _ _ _ (by omega)]
    exact BitVec.extractLsb'_eq_self
  simp [requestKlen, h]

/-- A frame is decoded exactly when it has the length its fields give (R71). -/
theorem decodeFrame_eq_some {klenW : Nat} {f : Frame} {i : Instr} :
    decodeFrame klenW f = some i ↔ f.len = requestLength klenW f ∧ requestFields klenW f = i := by
  simp [decodeFrame]

theorem decodeFrame_eq_none {klenW : Nat} {f : Frame} :
    decodeFrame klenW f = none ↔ f.len ≠ requestLength klenW f := by
  simp [decodeFrame]

end Sys2Proof
end

