-- ==== Sys2Proof/Laws/State.lean ====
section
/-! SUPPORT. One lemma per field per update of State. -/

namespace Sys2Proof.Machine

variable (s : State) (f : Frame)

@[simp] theorem State.emit_config : (s.emit f).config = s.config := rfl
@[simp] theorem State.emit_requests : (s.emit f).requests = s.requests := rfl
@[simp] theorem State.emit_responses : (s.emit f).responses = s.responses ++ [f] := rfl

@[simp] theorem State.answering_config : (s.answering f).config = s.config := rfl
@[simp] theorem State.answering_requests : (s.answering f).requests = s.requests := rfl
@[simp] theorem State.answering_responses : (s.answering f).responses = s.responses ++ [f] := rfl

@[simp] theorem State.asked_config : (s.asked f).config = s.config := rfl
@[simp] theorem State.asked_requests : (s.asked f).requests = f :: s.requests := rfl
@[simp] theorem State.asked_responses : (s.asked f).responses = s.responses := rfl

@[simp] theorem State.submit_config : (s.submit f).config = s.config := rfl
@[simp] theorem State.submit_requests : (s.submit f).requests = s.requests ++ [f] := rfl
@[simp] theorem State.submit_responses : (s.submit f).responses = s.responses := rfl

@[simp] theorem State.putFirst_config : (s.putFirst f).config = s.config := rfl
@[simp] theorem State.putFirst_requests : (s.putFirst f).requests = f :: s.requests := rfl
@[simp] theorem State.putFirst_responses : (s.putFirst f).responses = s.responses := rfl

@[simp] theorem State.reset_config : State.reset.config = magmaConfig := rfl
@[simp] theorem State.reset_requests : State.reset.requests = [] := rfl
@[simp] theorem State.reset_responses : State.reset.responses = [] := rfl

/-- The operation that emits a frame and the statements' word for its result agree. -/
theorem State.emit_eq_answering : s.emit f = s.answering f := rfl

/-- Taking the request that was just put in front leaves the state as it was. -/
@[simp] theorem State.takeRequest_asked : (s.asked f).takeRequest = some (f, s) := rfl

@[simp] theorem State.takeRequest_putFirst : (s.putFirst f).takeRequest = some (f, s) := rfl

/-- With nothing waiting there is nothing to take. -/
theorem State.takeRequest_nil (h : s.requests = []) : s.takeRequest = none := by
  simp [State.takeRequest, h]

/-- What is taken is the oldest request, and nothing else changes. -/
theorem State.takeRequest_eq_some {rest : State} :
    s.takeRequest = some (f, rest) ↔ s = rest.asked f := by
  constructor
  · intro h
    cases s with
    | mk c q p =>
      cases q with
      | nil => simp [State.takeRequest] at h
      | cons g t =>
        simp only [State.takeRequest, Option.some.injEq, Prod.mk.injEq] at h
        obtain ⟨rfl, rfl⟩ := h
        rfl
  · rintro rfl
    rfl

/-- A response collected is the oldest one, and nothing else changes. -/
theorem State.collect_eq_some {rest : State} (h : s.collect = some (f, rest)) :
    rest.config = s.config ∧ rest.requests = s.requests ∧ s.responses = f :: rest.responses := by
  cases s with
  | mk c q p =>
    cases p with
    | nil => simp [State.collect] at h
    | cons g t =>
      simp only [State.collect, Option.some.injEq, Prod.mk.injEq] at h
      obtain ⟨rfl, rfl⟩ := h
      exact ⟨rfl, rfl, rfl⟩

end Sys2Proof.Machine
end

