-- ==== Sys2Proof/Laws/Ops.lean ====
section
/-! SUPPORT. One lemma for each shared operation, saying what it computes or all it can do. -/

namespace Sys2Proof.Machine

/-- The flat address form of R46 and the two-index form name the same entry. -/
theorem sboxReadFlat_append (sbox : SBox) (i : BitVec 3) (v : Nibble) :
    sboxReadFlat sbox (i ++ v) = sboxRead sbox ⟨i.toNat, i.isLt⟩ v := by
  have hi : (i ++ v).extractLsb' 4 3 = i :=
    (extract_append_high i v 4 3 (by decide)).trans BitVec.extractLsb'_eq_self
  have hv : (i ++ v).extractLsb' 0 4 = v :=
    (extract_append_low i v 0 4 (by decide)).trans BitVec.extractLsb'_eq_self
  simp only [sboxReadFlat, hi, hv]

/-- Nibble `i` of `t(a)` is the entry that table `i` holds for nibble `i` of `a` (R91). -/
theorem substitute_nibble (sbox : SBox) (a : Word) (i : Fin 8) :
    nibble (substitute sbox a) i = sboxRead sbox i (nibble a i) := by
  have h : ∀ n : Fin 8, ∀ u : Fin 8 → Nibble,
      nibble (u 7 ++ u 6 ++ u 5 ++ u 4 ++ u 3 ++ u 2 ++ u 1 ++ u 0 : BitVec 32) n = u n := by
    intro n u
    fin_cases n <;> simp only [nibble]
    · rw [extract_append_low _ _ _ _ (by decide)]
      exact BitVec.extractLsb'_eq_self
    all_goals
      repeat rw [extract_append_high _ _ _ _ (by decide)]
      first
      | exact BitVec.extractLsb'_eq_self
      | (rw [extract_append_low _ _ _ _ (by decide)]; exact BitVec.extractLsb'_eq_self)
  exact h i fun n => sboxRead sbox n (nibble a n)

/-- Two words with equal nibbles are equal. -/
theorem word_eq_of_nibbles {a b : Word} (h : ∀ i : Fin 8, nibble a i = nibble b i) : a = b := by
  apply BitVec.eq_of_getLsbD_eq
  intro n hn
  have hi := congrArg (fun v => v.getLsbD (n % 4)) (h ⟨n / 4, by omega⟩)
  simpa [nibble, BitVec.getLsbD_extractLsb', Nat.mod_lt, Nat.div_add_mod] using hi

/-- "Bit by bit: `r[(j + 11) mod 32] = v[j]`" (R100). -/
theorem rotateLeft11_getLsbD (v : Word) (j : Nat) (h : j < 32) :
    (rotateLeft11 v).getLsbD ((j + 11) % 32) = v.getLsbD j := by
  have hb : ∀ n, (rotateLeft11 v).getLsbD n =
      if n < 11 then (v.extractLsb' 21 11).getLsbD n else (v.extractLsb' 0 21).getLsbD (n - 11) :=
    fun n => BitVec.getLsbD_append
  rw [hb]
  by_cases hj : j < 21
  · simp [show (j + 11) % 32 = j + 11 by omega, hj]
  · simp [show (j + 11) % 32 = j - 21 by omega, show j - 21 < 11 by omega, show 21 + (j - 21) = j by omega]

/-- `rotl11` is the library's rotation by 11. -/
theorem rotateLeft11_eq (v : Word) : rotateLeft11 v = v.rotateLeft 11 := by
  apply BitVec.eq_of_getLsbD_eq
  intro n hn
  by_cases h : n < 11
  · have := rotateLeft11_getLsbD v (n + 21) (by omega)
    rw [show (n + 21 + 11) % 32 = n by omega] at this
    rw [this, BitVec.getLsbD_rotateLeft]
    simp [h, Nat.add_comm]
  · have := rotateLeft11_getLsbD v (n - 11) (by omega)
    rw [show (n - 11 + 11) % 32 = n by omega] at this
    rw [this, BitVec.getLsbD_rotateLeft]
    simp [h, hn]

@[simp] theorem feistelStep_a1 (sbox : SBox) (k : Word) (p : Halves) : (feistelStep sbox k p).a1 = p.a0 := rfl

@[simp] theorem feistelStep_a0 (sbox : SBox) (k : Word) (p : Halves) :
    (feistelStep sbox k p).a0 = p.a1 ^^^ roundFunction sbox k p.a0 := rfl

/-- `G*` packs what `G` computes with the halves exchanged (R112). -/
theorem feistelFinal_eq (sbox : SBox) (k : Word) (p : Halves) :
    feistelFinal sbox k p = (feistelStep sbox k p).a0 ++ (feistelStep sbox k p).a1 := rfl

@[simp] theorem splitBlock_joinHalves (p : Halves) : splitBlock (joinHalves p) = p := by
  have h1 : (joinHalves p).extractLsb' 32 32 = p.a1 :=
    (extract_append_high p.a1 p.a0 32 32 (by decide)).trans BitVec.extractLsb'_eq_self
  have h0 : (joinHalves p).extractLsb' 0 32 = p.a0 :=
    (extract_append_low p.a1 p.a0 0 32 (by decide)).trans BitVec.extractLsb'_eq_self
  simp only [splitBlock, h1, h0]

@[simp] theorem joinHalves_splitBlock (b : Block) : joinHalves (splitBlock b) = b :=
  (extract_append_extract b 0 32 32).trans BitVec.extractLsb'_eq_self

@[simp] theorem feistelRounds_nil (sbox : SBox) (rk : Schedule) (p : Halves) : feistelRounds sbox rk [] p = p := rfl

@[simp] theorem feistelRounds_cons (sbox : SBox) (rk : Schedule) (i : Fin 32) (l : List (Fin 32)) (p : Halves) :
    feistelRounds sbox rk (i :: l) p = feistelRounds sbox rk l (feistelStep sbox rk[i] p) := rfl

theorem feistelRounds_append (sbox : SBox) (rk : Schedule) (l m : List (Fin 32)) (p : Halves) :
    feistelRounds sbox rk (l ++ m) p = feistelRounds sbox rk m (feistelRounds sbox rk l p) := by
  simp [feistelRounds]

/-- Round `i` of a schedule EXPKEY produces (R122). -/
theorem expandKey_getElem (key : MasterKey) (i : Nat) (h : i < 32) :
    (expandKey key)[i] = key.extractLsb' (224 - 32 * (if i < 24 then i % 8 else 31 - i)) 32 := by
  by_cases h24 : i < 24
  · simp [expandKey, subKeys, h24]
  · have e : (31 - i) % 8 = 31 - i := by omega
    simp [expandKey, subKeys, h24, e]

/-- All that ending a transaction does: the next state differs in one emitted frame. -/
theorem respond_eq (s : State) (r : Response) : respond s r = .next (s.answering (encodeResponse r)) := rfl

/-- All that raising InvalidKeyLength does (R151). -/
theorem raiseInvalidKeyLength_eq (s : State) :
    raiseInvalidKeyLength s = .next (s.answering (encodeResponse .invalidKeyLength)) := rfl

end Sys2Proof.Machine
end

