-- ==== Sys2Proof/Laws/Exec.lean ====
section
/-! SUPPORT. What a meaning and a step can do, said once. -/

namespace Sys2Proof.Machine

/-! The answer of each meaning, in the model's own functions. -/

theorem exec_subst (w : Word) (s : State) :
    exec (.subst w) s = .next (s.answering (encodeResponse (.word (substitute s.config.sbox w)))) := rfl

theorem exec_rotl11 (w : Word) (s : State) :
    exec (.rotl11 w) s = .next (s.answering (encodeResponse (.word (rotateLeft11 w)))) := rfl

theorem exec_gfn (k a : Word) (s : State) :
    exec (.gfn k a) s = .next (s.answering (encodeResponse (.word (roundFunction s.config.sbox k a)))) := rfl

theorem exec_fstep (k a1 a0 : Word) (s : State) :
    exec (.fstep k a1 a0) s =
      .next (s.answering (encodeResponse (.pair (feistelStep s.config.sbox k { a1 := a1, a0 := a0 })))) := rfl

theorem exec_ffinal (k a1 a0 : Word) (s : State) :
    exec (.ffinal k a1 a0) s =
      .next (s.answering (encodeResponse (.block (feistelFinal s.config.sbox k { a1 := a1, a0 := a0 })))) := rfl

theorem exec_expkey_256 (key : MasterKey) (s : State) :
    exec (.expkey ⟨256, key⟩) s = .next (s.answering (encodeResponse (.schedule (expandKey key)))) := by
  simp [exec, execExpkey, isMasterKeyLength, respond_eq]

theorem exec_expkey_other {km : KeyMaterial} (h : km.len ≠ 256) (s : State) :
    exec (.expkey km) s = .next (s.answering (encodeResponse .invalidKeyLength)) := by
  simp [exec, execExpkey, isMasterKeyLength, h, raiseInvalidKeyLength_eq]

theorem exec_enc (blk : Block) (rk : Schedule) (s : State) :
    exec (.enc blk rk) s = .next (s.answering (encodeResponse (.block (encryptBlock s.config.sbox blk rk)))) := rfl

theorem exec_dec (blk : Block) (rk : Schedule) (s : State) :
    exec (.dec blk rk) s = .next (s.answering (encodeResponse (.block (decryptBlock s.config.sbox blk rk)))) := rfl

/-- The response the core gives a request: a function of the configuration and the request alone (R29, R49). -/
theorem exec_responds (i : Instr) (c : Config) :
    ∃ r : Response, ∀ s : State, s.config = c → exec i s = .next (s.answering (encodeResponse r)) := by
  cases i with
  | subst w => exact ⟨.word (substitute c.sbox w), by rintro s rfl; exact exec_subst w s⟩
  | rotl11 w => exact ⟨_, by rintro s rfl; exact exec_rotl11 w s⟩
  | gfn k a => exact ⟨.word (roundFunction c.sbox k a), by rintro s rfl; exact exec_gfn k a s⟩
  | fstep k a1 a0 => exact ⟨.pair (feistelStep c.sbox k { a1 := a1, a0 := a0 }), by rintro s rfl; exact exec_fstep k a1 a0 s⟩
  | ffinal k a1 a0 => exact ⟨.block (feistelFinal c.sbox k { a1 := a1, a0 := a0 }), by rintro s rfl; exact exec_ffinal k a1 a0 s⟩
  | expkey km =>
    by_cases h : km.len = 256
    · obtain ⟨n, key⟩ := km
      obtain rfl : n = 256 := h
      exact ⟨_, by rintro s rfl; exact exec_expkey_256 key s⟩
    · exact ⟨_, by rintro s rfl; exact exec_expkey_other h s⟩
  | enc blk rk => exact ⟨.block (encryptBlock c.sbox blk rk), by rintro s rfl; exact exec_enc blk rk s⟩
  | dec blk rk => exact ⟨.block (decryptBlock c.sbox blk rk), by rintro s rfl; exact exec_dec blk rk s⟩

/-- A step on a frame that spells a request is that request's meaning. -/
theorem step_asked_some {s : State} {f : Frame} {i : Instr} (h : decodeFrame s.config.klenW f = some i) :
    step (s.asked f) = exec i s := by
  simp [step, h]

/-- A step on a frame that spells none is refused. -/
theorem step_asked_none {s : State} {f : Frame} (h : decodeFrame s.config.klenW f = none) :
    step (s.asked f) = .refused .spellsNoRequest := by
  simp [step, h]

/-- All a step can do: nothing, refuse a frame that spells no request, or answer the oldest request. -/
theorem step_cases (s : State) :
    (s.requests = [] ∧ step s = .next s) ∨
    (∃ f rest, s = State.asked rest f ∧ decodeFrame s.config.klenW f = none ∧ step s = .refused .spellsNoRequest) ∨
    (∃ f rest i r, s = State.asked rest f ∧ decodeFrame s.config.klenW f = some i ∧
      step s = .next (rest.answering (encodeResponse r))) := by
  cases hq : s.takeRequest with
  | none =>
    refine .inl ⟨?_, by simp [step, hq]⟩
    cases s with
    | mk c q p => cases q with
      | nil => rfl
      | cons g t => simp [State.takeRequest] at hq
  | some fr =>
    obtain ⟨f, rest⟩ := fr
    obtain rfl := (State.takeRequest_eq_some s f).1 hq
    cases hd : decodeFrame rest.config.klenW f with
    | none => exact .inr (.inl ⟨f, rest, rfl, hd, step_asked_none hd⟩)
    | some i =>
      obtain ⟨r, hr⟩ := exec_responds i rest.config
      exact .inr (.inr ⟨f, rest, i, r, rfl, hd, (step_asked_some hd).trans (hr rest rfl)⟩)

/-- A step never writes the configuration: `SBOX` is "never mutated after definition" (R21). -/
theorem step_config {s t : State} (h : step s = .next t) : t.config = s.config := by
  obtain ⟨-, h1⟩ | ⟨f, rest, -, -, h1⟩ | ⟨f, rest, i, r, rfl, -, h1⟩ := step_cases s <;> rw [h1] at h
  · cases h; rfl
  · cases h
  · cases h; rfl

end Sys2Proof.Machine
end

