-- ==== Sys2Proof/Laws/PerInstr.lean ====
section
/-! SUPPORT. Statements for all instructions, one lemma per constructor. -/

namespace Sys2Proof.Laws.FrameShape

/-- The frame of a request carries its operation's code and has the length its own fields give (R60, R61, R71). -/
def Statement (i : Instr) : Prop :=
  ∀ klenW, i.wf klenW = true →
    requestOp (encode klenW i) = i.op ∧ requestLength klenW (encode klenW i) = (encode klenW i).len

theorem subst (w : Word) : Statement (.subst w) := by
  intro n _
  have h : requestOp (encode n (.subst w)) = .subst := requestOp_append w .subst
  exact ⟨h, by simp only [requestLength, h]; rfl⟩

theorem rotl11 (w : Word) : Statement (.rotl11 w) := by
  intro n _
  have h : requestOp (encode n (.rotl11 w)) = .rotl11 := requestOp_append w .rotl11
  exact ⟨h, by simp only [requestLength, h]; rfl⟩

theorem gfn (k a : Word) : Statement (.gfn k a) := by
  intro n _
  have h : requestOp (encode n (.gfn k a)) = .gfn := requestOp_append (k ++ a) .gfn
  exact ⟨h, by simp only [requestLength, h]; rfl⟩

theorem fstep (k a1 a0 : Word) : Statement (.fstep k a1 a0) := by
  intro n _
  have h : requestOp (encode n (.fstep k a1 a0)) = .fstep := requestOp_append (k ++ a1 ++ a0) .fstep
  exact ⟨h, by simp only [requestLength, h]; rfl⟩

theorem ffinal (k a1 a0 : Word) : Statement (.ffinal k a1 a0) := by
  intro n _
  have h : requestOp (encode n (.ffinal k a1 a0)) = .ffinal := requestOp_append (k ++ a1 ++ a0) .ffinal
  exact ⟨h, by simp only [requestLength, h]; rfl⟩

theorem expkey (km : KeyMaterial) : Statement (.expkey km) := by
  intro n hwf
  have hop : requestOp (encode n (.expkey km)) = .expkey :=
    requestOp_append (km.val ++ BitVec.ofNat n km.len) .expkey
  have hk : requestKlen n (encode n (.expkey km)) = km.len := by
    refine (requestKlen_append km.val (BitVec.ofNat n km.len) Op.expkey.code).trans ?_
    have h : km.len < 2 ^ n := by simpa [Instr.wf, KeyMaterial.fits] using hwf
    simp [Nat.mod_eq_of_lt h]
  refine ⟨hop, ?_⟩
  have hl : (encode n (.expkey km)).len = km.len + n + 3 := rfl
  simp only [requestLength, hop, hk, hl]
  omega

theorem enc (blk : Block) (rk : Schedule) : Statement (.enc blk rk) := by
  intro n _
  have h : requestOp (encode n (.enc blk rk)) = .enc := requestOp_append (blk ++ packSchedule rk) .enc
  exact ⟨h, by simp only [requestLength, h]; rfl⟩

theorem dec (blk : Block) (rk : Schedule) : Statement (.dec blk rk) := by
  intro n _
  have h : requestOp (encode n (.dec blk rk)) = .dec := requestOp_append (blk ++ packSchedule rk) .dec
  exact ⟨h, by simp only [requestLength, h]; rfl⟩

end Sys2Proof.Laws.FrameShape
end

