-- ==== Sys2Proof/Tests/Slice0.lean ====
section
/-! SUPPORT. Tests of single steps on small states. Every expected value is the spec's own: the numeric vectors of
95_test_vectors.md (its source vectors, section 1, and the frames and results of its sections 3 to 9, which that file
derived from the rules), or a word written out from the layouts of 30_encoding.md.
The theorems are elaborated one after another, which keeps the memory a compile takes low. -/

namespace Sys2Proof.Tests

set_option Elab.async false

open Sys2Proof.Machine

/-- The frame answered when a core with the table of R90 is delivered one request frame. -/
def answerTo (f : Frame) : Option Frame :=
  match step (State.reset.asked f) with
  | .next t => t.responses.head?
  | .fault _ => none
  | .refused _ => none

/-- The frame answered to a decoded request. -/
def answerOf (i : Instr) : Option Frame :=
  match exec i State.reset with
  | .next t => t.responses.head?
  | .fault _ => none
  | .refused _ => none

/-- The known-answer key (95_test_vectors.md 1.1). -/
def katKey : MasterKey := 0xffeeddccbbaa99887766554433221100f0f1f2f3f4f5f6f7f8f9fafbfcfdfeff

/-- The known-answer schedule, RK[0] first (95_test_vectors.md 7.1). -/
def katSchedule : Schedule :=
  #v[0xffeeddcc, 0xbbaa9988, 0x77665544, 0x33221100, 0xf0f1f2f3, 0xf4f5f6f7, 0xf8f9fafb, 0xfcfdfeff,
     0xffeeddcc, 0xbbaa9988, 0x77665544, 0x33221100, 0xf0f1f2f3, 0xf4f5f6f7, 0xf8f9fafb, 0xfcfdfeff,
     0xffeeddcc, 0xbbaa9988, 0x77665544, 0x33221100, 0xf0f1f2f3, 0xf4f5f6f7, 0xf8f9fafb, 0xfcfdfeff,
     0xfcfdfeff, 0xf8f9fafb, 0xf4f5f6f7, 0xf0f1f2f3, 0x33221100, 0x77665544, 0xbbaa9988, 0xffeeddcc]

/-! ### WellFormed: its one check refuses material that is too long for its field -/

theorem test_wf_refuses_long_material : (Instr.expkey ⟨65536, 0⟩).wf defaultKlenW = false := by decide +kernel

theorem test_wf_accepts_longest_material : (Instr.expkey ⟨65535, 0⟩).wf defaultKlenW = true := by decide +kernel

/-! ### Decoding: words written out from the layouts of R63 to R67 and the frames of 95_test_vectors.md section 9 -/

theorem test_decode_subst : decodeFrame 16 ⟨35, 0x7edcba988⟩ = some (.subst 0xfdb97531) := by decide +kernel

theorem test_decode_subst_bits :
    decodeFrame 16 ⟨35, 0b00000000000000000000000010100000000⟩ = some (.subst 0x000000a0) := by decide +kernel

theorem test_decode_rotl11 : decodeFrame 16 ⟨35, 0x091a2b3c1⟩ = some (.rotl11 0x12345678) := by decide +kernel

theorem test_decode_gfn : decodeFrame 16 ⟨67, 0x43b2a190ff6e5d4c2⟩ = some (.gfn 0x87654321 0xfedcba98) := by
  decide +kernel

theorem test_decode_fstep :
    decodeFrame 16 ⟨99, 0x7ff76ee67f6e5d4c3b2a19083⟩ = some (.fstep 0xffeeddcc 0xfedcba98 0x76543210) := by
  decide +kernel

theorem test_decode_ffinal :
    decodeFrame 16 ⟨99, 0x7ff76ee611cd22bbe16c651ec⟩ = some (.ffinal 0xffeeddcc 0x239a4577 0xc2d8ca3d) := by
  decide +kernel

theorem test_decode_expkey :
    decodeFrame 16 ⟨275, 0x7ff76ee65dd54cc43bb32aa2199108807878f979fa7afb7bfc7cfd7dfe7eff7f80805⟩ =
      some (.expkey ⟨256, katKey⟩) := by decide +kernel

theorem test_decode_expkey_short : decodeFrame 16 ⟨27, 0x7f80045⟩ = some (.expkey ⟨8, 0xff⟩) := by decide +kernel

theorem test_decode_expkey_empty : decodeFrame 16 ⟨19, 0x00005⟩ = some (.expkey ⟨0, 0⟩) := by decide +kernel

theorem test_decode_enc :
    decodeFrame 16 ⟨1091, 0x7f6e5d4c3b2a19087ff76ee65dd54cc43bb32aa2199108807878f979fa7afb7bfc7cfd7dfe7eff7ffff76ee65dd54cc43bb32aa2199108807878f979fa7afb7bfc7cfd7dfe7eff7ffff76ee65dd54cc43bb32aa2199108807878f979fa7afb7bfc7cfd7dfe7eff7ffe7eff7ffc7cfd7dfa7afb7bf878f979999108803bb32aa25dd54cc47ff76ee66⟩ =
      some (.enc 0xfedcba9876543210 katSchedule) := by decide +kernel

theorem test_decode_dec :
    decodeFrame 16 ⟨1091, 0x277480f2e16c651efff76ee65dd54cc43bb32aa2199108807878f979fa7afb7bfc7cfd7dfe7eff7ffff76ee65dd54cc43bb32aa2199108807878f979fa7afb7bfc7cfd7dfe7eff7ffff76ee65dd54cc43bb32aa2199108807878f979fa7afb7bfc7cfd7dfe7eff7ffe7eff7ffc7cfd7dfa7afb7bf878f979999108803bb32aa25dd54cc47ff76ee67⟩ =
      some (.dec 0x4ee901e5c2d8ca3d katSchedule) := by decide +kernel

theorem test_encode_enc :
    encode 16 (.enc 0xfedcba9876543210 katSchedule) = ⟨1091, 0x7f6e5d4c3b2a19087ff76ee65dd54cc43bb32aa2199108807878f979fa7afb7bfc7cfd7dfe7eff7ffff76ee65dd54cc43bb32aa2199108807878f979fa7afb7bfc7cfd7dfe7eff7ffff76ee65dd54cc43bb32aa2199108807878f979fa7afb7bfc7cfd7dfe7eff7ffe7eff7ffc7cfd7dfa7afb7bf878f979999108803bb32aa25dd54cc47ff76ee66⟩ := by decide +kernel

theorem test_encode_expkey_255 :
    encode 16 (.expkey ⟨255, 0x7ff76ee65dd54cc43bb32aa2199108807878f979fa7afb7bfc7cfd7dfe7eff7f⟩) =
      ⟨274, 0x3ffbb7732eeaa6621dd995510cc884403c3c7cbcfd3d7dbdfe3e7ebeff3f7fbf807fd⟩ := by decide +kernel

/-- One bit too many, one too few, no code at all, and a KM frame longer than its `klen` says (R71). -/
theorem test_decode_refuses_wrong_lengths :
    decodeFrame 16 ⟨36, 0x7edcba988⟩ = none ∧ decodeFrame 16 ⟨66, 2⟩ = none ∧ decodeFrame 16 ⟨0, 0⟩ = none ∧
      decodeFrame 16 ⟨20, 0x00005⟩ = none := by decide +kernel

/-- The table's row of each operation, with every operand bit zero, is decoded and run as the first step after reset. -/
theorem test_table_words :
    decodeTableWord 40 0 = some (.subst 0) ∧ decodeTableWord 40 1 = some (.rotl11 0) ∧
      decodeTableWord 72 2 = some (.gfn 0 0) ∧ decodeTableWord 104 3 = some (.fstep 0 0 0) ∧
      decodeTableWord 104 4 = some (.ffinal 0 0 0) ∧ decodeTableWord 8 5 = some (.expkey ⟨0, 0⟩) ∧
      decodeTableWord 1096 6 = some (.enc 0 (Vector.replicate 32 0)) ∧
      decodeTableWord 8 7 = some (.dec 0 (Vector.replicate 32 0)) := by decide +kernel

/-- The state after one step, or nothing. -/
def stepped (s : State) : Option State :=
  match step s with
  | .next t => some t
  | .fault _ => none
  | .refused _ => none

theorem test_withFetchWord_runs :
    stepped (State.reset.withFetchWord 72 2) = some (State.reset.answering ⟨33, 0x17cb6c184⟩) := by decide +kernel

theorem test_withFetchWord_runs_enc :
    stepped (State.reset.withFetchWord 1096 6) = some (State.reset.answering ⟨65, 0x78b6bd4a81726659#64 ++ 0#1⟩) := by
  decide +kernel

/-! ### The operations, by the response frames of 95_test_vectors.md section 9 -/

theorem test_subst : answerTo ⟨35, 0x7edcba988⟩ = some ⟨33, 0x05432de68⟩ := by decide +kernel

theorem test_subst_columns :
    (List.range 16).map (fun v => substitute magmaSBox (BitVec.ofNat 32 (v * 0x11111111))) =
      [0x1857cb6c, 0x7edf8384, 0xe2f52526, 0xd56a1832, 0x0698d29a, 0x59214fa5, 0x81c6fa5b, 0x3cad6dc9,
       0x4fb07e1e, 0xf47901e8, 0xab83a74d, 0x601e5477, 0x9d4b3cb0, 0xca34e9d3, 0xb3e2960f, 0x270cb0f1] := by
  decide +kernel

theorem test_rotl11 : answerTo ⟨35, 0x091a2b3c1⟩ = some ⟨33, 0x145678122⟩ := by decide +kernel

theorem test_rotl11_wraps : answerOf (.rotl11 0x00200000) = some ⟨33, 0x000000002⟩ := by decide +kernel

theorem test_gfn : answerTo ⟨67, 0x43b2a190ff6e5d4c2⟩ = some ⟨33, 0x1fb978418⟩ := by decide +kernel

theorem test_gfn_sum_wraps : answerOf (.gfn 0xffffffff 0x00000001) = some ⟨33, 0x17cb6c184⟩ := by decide +kernel

theorem test_fstep : answerTo ⟨99, 0x7ff76ee67f6e5d4c3b2a19083⟩ = some ⟨65, 0x0eca8642051b47628⟩ := by decide +kernel

theorem test_ffinal : answerTo ⟨99, 0x7ff76ee611cd22bbe16c651ec⟩ = some ⟨65, 0x09dd203cb85b1947a⟩ := by decide +kernel

theorem test_expkey :
    answerTo ⟨275, 0x7ff76ee65dd54cc43bb32aa2199108807878f979fa7afb7bfc7cfd7dfe7eff7f80805⟩ =
      some ⟨1025, 0x1ffddbb9977553310eeccaa8866442201e1e3e5e7e9ebedeff1f3f5f7f9fbfdffffddbb9977553310eeccaa8866442201e1e3e5e7e9ebedeff1f3f5f7f9fbfdffffddbb9977553310eeccaa8866442201e1e3e5e7e9ebedeff1f3f5f7f9fbfdfff9fbfdfff1f3f5f7e9ebedefe1e3e5e666442200eeccaa8977553311ffddbb98⟩ := by decide +kernel

theorem test_expkey_rejects_255 :
    answerTo ⟨274, 0x3ffbb7732eeaa6621dd995510cc884403c3c7cbcfd3d7dbdfe3e7ebeff3f7fbf807fd⟩ = some ⟨1, 1⟩ := by decide +kernel

theorem test_expkey_rejects_257 :
    answerTo ⟨276, 0xffeeddccbbaa99887766554433221100f0f1f2f3f4f5f6f7f8f9fafbfcfdfeff0080d⟩ = some ⟨1, 1⟩ := by decide +kernel

theorem test_enc : answerTo ⟨1091, 0x7f6e5d4c3b2a19087ff76ee65dd54cc43bb32aa2199108807878f979fa7afb7bfc7cfd7dfe7eff7ffff76ee65dd54cc43bb32aa2199108807878f979fa7afb7bfc7cfd7dfe7eff7ffff76ee65dd54cc43bb32aa2199108807878f979fa7afb7bfc7cfd7dfe7eff7ffe7eff7ffc7cfd7dfa7afb7bf878f979999108803bb32aa25dd54cc47ff76ee66⟩ =
    some ⟨65, 0x09dd203cb85b1947a⟩ := by decide +kernel

/-- A schedule that no key produces (95_test_vectors.md 8.4). -/
theorem test_enc_any_schedule :
    encryptBlock magmaSBox 0xfedcba9876543210 (Vector.ofFn fun i => BitVec.ofNat 32 i.val) = 0x12c0a3a52adbcea0 := by
  decide +kernel

theorem test_dec : answerTo ⟨1091, 0x277480f2e16c651efff76ee65dd54cc43bb32aa2199108807878f979fa7afb7bfc7cfd7dfe7eff7ffff76ee65dd54cc43bb32aa2199108807878f979fa7afb7bfc7cfd7dfe7eff7ffff76ee65dd54cc43bb32aa2199108807878f979fa7afb7bfc7cfd7dfe7eff7ffe7eff7ffc7cfd7dfa7afb7bf878f979999108803bb32aa25dd54cc47ff76ee67⟩ =
    some ⟨65, 0x1fdb97530eca86420⟩ := by decide +kernel

/-- The known-answer block decrypted (95_test_vectors.md 8.3): DEC is not ENC. -/
theorem test_dec_is_not_enc :
    decryptBlock magmaSBox 0xfedcba9876543210 katSchedule = 0xd4b031eb50814b26 := by decide +kernel

/-- The state entering round 16 of the known-answer encryption (95_test_vectors.md 8.1). -/
theorem test_encTrace_16 :
    encTrace magmaSBox katSchedule 0xfedcba9876543210 16 = ⟨0x2098cd86, 0x4f15b0bb⟩ := by decide +kernel

/-! ### The machine -/

theorem test_idle : step State.reset = .next State.reset := rfl

theorem test_refuses_what_spells_no_request :
    step (State.reset.asked ⟨36, 0⟩) = .refused .spellsNoRequest := rfl

/-- A request joins at the back of the queue and the oldest response leaves first. -/
theorem test_submit_collect :
    (State.reset.submit ⟨35, 0⟩).requests = [⟨35, 0⟩] ∧
      ((State.reset.answering ⟨1, 1⟩).answering ⟨33, 0⟩).collect = some (⟨1, 1⟩, State.reset.answering ⟨33, 0⟩) := by
  decide +kernel

theorem test_sboxReadFlat : sboxReadFlat magmaSBox (BitVec.ofNat 7 (16 * 7 + 15)) = 2 := by decide +kernel

theorem test_decodeResponse_error : decodeResponse .expkey ⟨1, 1⟩ = some .invalidKeyLength := by decide +kernel

/-! ### Text (R72, R73) -/

theorem test_text_of_gfn :
    requestText (.gfn 0x87654321 0xfedcba98) =
      ['G', 'F', 'N', ' ', '8', '7', '6', '5', '4', '3', '2', '1', ',', ' ',
       'f', 'e', 'd', 'c', 'b', 'a', '9', '8'] := by decide +kernel

/-- `EXPKEY 8'hff` (R73). -/
theorem test_assemble_key_literal :
    assemble ['E', 'X', 'P', 'K', 'E', 'Y', ' ', '8', '\'', 'h', 'f', 'f'] = some (.expkey ⟨8, 0xff⟩) := by decide +kernel

theorem test_assemble_enc :
    assemble (requestText (.enc 0xfedcba9876543210 katSchedule)) = some (.enc 0xfedcba9876543210 katSchedule) := by
  decide +kernel

/-- A literal of the wrong length and one with a bit above `klen` are no literals (R73). -/
theorem test_assemble_refuses :
    assemble ['S', 'U', 'B', 'S', 'T', ' ', '1', '2'] = none ∧
      assemble ['E', 'X', 'P', 'K', 'E', 'Y', ' ', '7', '\'', 'h', 'f', 'f'] = none := by decide +kernel

/-! ### Witnesses: for each statement with hypotheses, a state and operands that meet them together -/

/-- WorkedExamplesOfTheTransforms, KnownAnswerVector: a core that holds the table of R90; and ExpkeyExpandsMasterKey,
KeyedRoundTripInFrames: their premise `9 ≤ klenW`. -/
theorem witness_reset_has_the_table : State.reset.config.sbox = magmaSBox ∧ 9 ≤ State.reset.config.klenW := by
  decide +kernel

/-- ExpkeyRejectsOtherLengths, ErrorLeavesNothingBehind: the lengths next to 256 and at the ends of the field's range. -/
theorem witness_other_lengths : ∀ klen ∈ [0, 255, 257, 65535], klen ≠ 256 ∧ klen < 2 ^ State.reset.config.klenW := by
  decide +kernel

/-- EncRunsThirtyTwoRounds, DecRunsTheRoundsBackwards: a field that holds the words of a schedule. -/
theorem witness_packed_schedule :
    ∀ i : Fin 32, (packSchedule katSchedule).extractLsb' (992 - 32 * i.val) 32 = katSchedule[i] := by decide +kernel

/-- DecryptionTraceMirrorsEncryption: a block that is an encryption, and the ends of the range of `j`. -/
theorem witness_trace :
    0x4ee901e5c2d8ca3d = encryptBlock magmaSBox 0xfedcba9876543210 katSchedule ∧
      decTrace magmaSBox katSchedule 0x4ee901e5c2d8ca3d 1 = ⟨0xc2d8ca3d, 0x239a4577⟩ ∧
      decTrace magmaSBox katSchedule 0x4ee901e5c2d8ca3d 31 = ⟨0x28da3b14, 0x76543210⟩ := by decide +kernel

/-- DecIsEncWithScheduleReversed: a schedule and its reverse, which differ (95_test_vectors.md 8.5). -/
theorem witness_reversed_schedule :
    (∀ i : Fin 32, katSchedule.reverse[i.val] = katSchedule[31 - i.val]) ∧ katSchedule.reverse ≠ katSchedule := by
  decide +kernel

/-- PalindromicScheduleMakesAnInvolution: the all-zero schedule and the all-zero key (R135). -/
theorem witness_palindrome :
    (∀ i : Fin 32, (Vector.replicate 32 (0 : Word))[i.val] = (Vector.replicate 32 (0 : Word))[31 - i.val]) ∧
      ∀ j : Fin 4, (0 : MasterKey).extractLsb' (224 - 32 * j.val) 32 = (0 : MasterKey).extractLsb' (224 - 32 * (7 - j.val)) 32 := by
  decide +kernel

/-- GfnDependsOnSumAndIsBijective, SubstIsBijective: a core whose tables are bijections (R92); and an entry that holds a
nibble: table 0 holds 12 at index 0. -/
theorem witness_bijective_tables :
    State.reset.config.sbox.IsBijective ∧ (State.reset.config.sbox[(0 : Fin 8)])[(0 : Fin 16)] = 12 := by decide +kernel

/-- Rotl11HasOrderThirtyTwo: both ends of the range of `n`, and a multiple of 32. -/
theorem witness_rotations : 0 ≤ 32 ∧ 32 ≤ 32 ∧ 32 ∣ 64 := by decide

/-- ExpkeyIsInjective: one answer, asked for twice. -/
theorem witness_same_answer : packSchedule (expandKey katKey) = packSchedule katSchedule := by decide +kernel

/-- SboxIsReadThroughSubst: two tables that differ. -/
theorem witness_other_table : (1 : Fin 8) ≠ 0 := by decide

/-- DecodeOfEncode: a request of the one kind that can fail to have a frame. -/
theorem witness_wf : (Instr.expkey ⟨256, katKey⟩).wf 16 = true ∧ (Instr.expkey ⟨65535, 0⟩).wf 16 = true := by decide +kernel

/-- KlenWidthDoesNotMatter: one request in two cores whose fields are 9 and 16 bits wide. -/
theorem witness_two_widths :
    let narrow : State := { State.reset with config := { magmaConfig with klenW := 9 } }
    narrow.config.sbox = State.reset.config.sbox ∧ (Instr.expkey ⟨257, 0⟩).wf narrow.config.klenW = true ∧
      (Instr.expkey ⟨257, 0⟩).wf State.reset.config.klenW = true := by decide +kernel

/-- EncodeOfDecode, StepRunsTheDecodedRequest, RequestsCommute: frames that spell requests; LengthAlone…: one of each
kind of length and, next to it, one that spells none. -/
theorem witness_spells :
    Spells State.reset.config.klenW ⟨35, 0x7edcba988⟩ ∧ Spells State.reset.config.klenW ⟨67, 2⟩ ∧
      Spells State.reset.config.klenW ⟨99, 4⟩ ∧ Spells State.reset.config.klenW ⟨19, 5⟩ ∧
      Spells State.reset.config.klenW ⟨1091, 7⟩ ∧ decodeFrame State.reset.config.klenW ⟨34, 0⟩ = none ∧
      decodeFrame State.reset.config.klenW ⟨18, 5⟩ = none ∧ decodeFrame State.reset.config.klenW ⟨1090, 6⟩ = none :=
  ⟨⟨.subst 0xfdb97531, by decide +kernel⟩, ⟨.gfn 0 0, by decide +kernel⟩, ⟨.ffinal 0 0 0, by decide +kernel⟩,
    ⟨.expkey ⟨0, 0⟩, by decide +kernel⟩, ⟨.dec 0 (Vector.replicate 32 0), by decide +kernel⟩, by decide +kernel,
    by decide +kernel, by decide +kernel⟩

/-- StepRunsTheDecodedRequest, its second clause. -/
theorem witness_idle : State.reset.requests = [] := rfl

/-- TableWordIsTheNextRequest. -/
theorem witness_table_word : State.reset.config.klenW = 16 ∧ decodeTableWord 104 4 = some (.ffinal 0 0 0) := by
  decide +kernel

/-- StepKeepsInvariant, StepWritesOnlyTheQueues, ResetHoldsTheTables: a state that meets the invariant, with a request
waiting and a response emitted, and its next state. -/
theorem witness_invariant_step :
    ((State.reset.answering ⟨1, 1⟩).asked ⟨35, 1⟩).Inv ∧
      stepped ((State.reset.answering ⟨1, 1⟩).asked ⟨35, 1⟩) =
        some ((State.reset.answering ⟨1, 1⟩).answering ⟨33, 0⟩) := by
  refine ⟨⟨by decide +kernel, ?_⟩, by decide +kernel⟩
  intro f hf
  obtain rfl : f = ⟨1, 1⟩ := by simpa [State.asked, State.answering, State.reset] using hf
  exact .inr ⟨rfl, rfl⟩

/-- ResponseDependsOnRequestAndSboxAlone, Rotl11AndExpkeyReadNoSbox: two states that differ and agree on the array. -/
theorem witness_states_that_agree :
    State.reset.config.sbox = ((State.reset.answering ⟨1, 1⟩).asked ⟨35, 1⟩).config.sbox ∧
      State.reset ≠ (State.reset.answering ⟨1, 1⟩).asked ⟨35, 1⟩ := by decide +kernel

/-- EveryRequestIsAnsweredOnce: a state with two requests waiting, one of which is answered by the error. -/
theorem witness_safe : ((State.reset.asked ⟨19, 5⟩).asked ⟨35, 1⟩).Safe := by
  intro f hf
  simp only [State.asked, State.reset, List.mem_cons, List.not_mem_nil, or_false] at hf
  rcases hf with rfl | rfl
  · exact ⟨.rotl11 0, by decide +kernel⟩
  · exact ⟨.expkey ⟨0, 0⟩, by decide +kernel⟩

end Sys2Proof.Tests
end

section
/-! PROOFS. Decoding is the inverse of encoding: the fields of a request's frame are its operands (R60 to R67, R71). -/

namespace Sys2Proof

/-- The field above two others is the uppermost part. -/
theorem extract_append_append_high {n m p : Nat} (x : BitVec n) (y : BitVec m) (z : BitVec p) (lo : Nat)
    (h : lo = m + p) : (x ++ y ++ z).extractLsb' lo n = x := by
  rw [extract_append_high _ _ _ _ (by omega), show lo - p = m by omega]
  exact BitVec.extractLsb'_append_eq_left

/-- The field between two others is the middle part. -/
theorem extract_append_append_middle {n m p : Nat} (x : BitVec n) (y : BitVec m) (z : BitVec p) :
    (x ++ y ++ z).extractLsb' p m = y := by
  rw [extract_append_high _ _ _ _ le_rfl, Nat.sub_self]
  exact BitVec.extractLsb'_append_eq_right

/-- The field above three others is the uppermost part. -/
theorem extract_append_append_append_high {n m p q : Nat} (x : BitVec n) (y : BitVec m) (z : BitVec p) (c : BitVec q)
    (lo : Nat) (h : lo = m + p + q) : (x ++ y ++ z ++ c).extractLsb' lo n = x := by
  rw [extract_append_high _ _ _ _ (by omega)]
  exact extract_append_append_high x y z _ (by omega)

/-- The second of four fields. -/
theorem extract_append_append_append_second {n m p q : Nat} (x : BitVec n) (y : BitVec m) (z : BitVec p)
    (c : BitVec q) (lo : Nat) (h : lo = p + q) : (x ++ y ++ z ++ c).extractLsb' lo m = y := by
  rw [extract_append_high _ _ _ _ (by omega), show lo - q = p by omega]
  exact extract_append_append_middle x y z

/-- Material fits its field exactly when the field can say its length (R66). -/
theorem wf_expkey {klenW : Nat} {km : KeyMaterial} : (Instr.expkey km).wf klenW = true ↔ km.len < 2 ^ klenW := by
  simp [Instr.wf, KeyMaterial.fits]

/-- The `klen` field of the frame of an EXPKEY request is the length of its material (R66). -/
theorem requestKlen_encode_expkey {klenW : Nat} {km : KeyMaterial} (h : km.len < 2 ^ klenW) :
    requestKlen klenW (encode klenW (.expkey km)) = km.len :=
  (requestKlen_append km.val (BitVec.ofNat klenW km.len) Op.expkey.code).trans (by simp [Nat.mod_eq_of_lt h])

/-- Every request's frame carries its code and has the length its own fields give (R60, R61, R71). -/
theorem encode_frameShape (i : Instr) : Laws.FrameShape.Statement i := by
  cases i with
  | subst w => exact Laws.FrameShape.subst w
  | rotl11 w => exact Laws.FrameShape.rotl11 w
  | gfn k a => exact Laws.FrameShape.gfn k a
  | fstep k a1 a0 => exact Laws.FrameShape.fstep k a1 a0
  | ffinal k a1 a0 => exact Laws.FrameShape.ffinal k a1 a0
  | expkey km => exact Laws.FrameShape.expkey km
  | enc blk rk => exact Laws.FrameShape.enc blk rk
  | dec blk rk => exact Laws.FrameShape.dec blk rk

/-! The fields of each fixed-length format, whatever the code below them (R63 to R65, R67). -/

theorem fields_formatW1 (w : Word) (c : BitVec 3) : (Bits.mk 35 (w ++ c)).field 3 32 = w :=
  BitVec.extractLsb'_append_eq_left

theorem fields_formatW2 (k a : Word) (c : BitVec 3) :
    (Bits.mk 67 (k ++ a ++ c)).field 35 32 = k ∧ (Bits.mk 67 (k ++ a ++ c)).field 3 32 = a :=
  ⟨extract_append_append_high k a c 35 rfl, extract_append_append_middle k a c⟩

theorem fields_formatW3 (k a1 a0 : Word) (c : BitVec 3) :
    (Bits.mk 99 (k ++ a1 ++ a0 ++ c)).field 67 32 = k ∧ (Bits.mk 99 (k ++ a1 ++ a0 ++ c)).field 35 32 = a1 ∧
      (Bits.mk 99 (k ++ a1 ++ a0 ++ c)).field 3 32 = a0 :=
  ⟨extract_append_append_append_high k a1 a0 c 67 rfl, extract_append_append_append_second k a1 a0 c 35 rfl,
    extract_append_append_middle (k ++ a1) a0 c⟩

theorem fields_formatBS (blk : Block) (rk : Schedule) (c : BitVec 3) :
    (Bits.mk 1091 (blk ++ packSchedule rk ++ c)).field 1027 64 = blk ∧
      unpackSchedule ((Bits.mk 1091 (blk ++ packSchedule rk ++ c)).field 3 1024) = rk :=
  ⟨extract_append_append_high blk (packSchedule rk) c 1027 rfl,
    (congrArg unpackSchedule (extract_append_append_middle blk (packSchedule rk) c)).trans
      (unpackSchedule_packSchedule rk)⟩

/-- The material of the frame of an EXPKEY request is read back with its length (R66). -/
theorem field_encode_expkey (klenW : Nat) (km : KeyMaterial) :
    (encode klenW (.expkey km)).field (3 + klenW) km.len = km.val :=
  extract_append_append_high km.val (BitVec.ofNat klenW km.len) Op.expkey.code _ (Nat.add_comm 3 klenW)

/-- The fields of a request's frame are the request's operands (R63 to R67). -/
theorem requestFields_encode {klenW : Nat} {i : Instr} (hwf : i.wf klenW = true) :
    requestFields klenW (encode klenW i) = i := by
  rw [requestFields, (encode_frameShape i klenW hwf).1]
  cases i with
  | subst w => simp only [Instr.op, encode, fields_formatW1]
  | rotl11 w => simp only [Instr.op, encode, fields_formatW1]
  | gfn k a => simp only [Instr.op, encode, fields_formatW2]
  | fstep k a1 a0 => simp only [Instr.op, encode, fields_formatW3]
  | ffinal k a1 a0 => simp only [Instr.op, encode, fields_formatW3]
  | expkey km =>
    simp only [Instr.op]
    rw [requestKlen_encode_expkey (wf_expkey.1 hwf), field_encode_expkey]
  | enc blk rk => simp only [Instr.op, encode, fields_formatBS]
  | dec blk rk => simp only [Instr.op, encode, fields_formatBS]

/-- The frame of a request that has one spells that request, at any width of the `klen` field (R60 to R67, R71). -/
theorem decodeFrame_encode {klenW : Nat} {i : Instr} (hwf : i.wf klenW = true) :
    decodeFrame klenW (encode klenW i) = some i :=
  decodeFrame_eq_some.2 ⟨(encode_frameShape i klenW hwf).2.symm, requestFields_encode hwf⟩

end Sys2Proof
end

section
/-! PROOFS. The response to a request as a function of the request and the S-box array alone (R29, R30). -/

namespace Sys2Proof.Machine

/-- The answer to EXPKEY: the schedule of a 256-bit key, the error for any other length (R120, R121). -/
def expkeyResponse (km : KeyMaterial) : Response :=
  if km.len = 256 then .schedule (expandKey (km.field 0 256)) else .invalidKeyLength

/-- The answer to a request in a core that holds the array `sbox`. -/
def responseTo (sbox : SBox) : Instr → Response
  | .subst w => .word (substitute sbox w)
  | .rotl11 w => .word (rotateLeft11 w)
  | .gfn k a => .word (roundFunction sbox k a)
  | .fstep k a1 a0 => .pair (feistelStep sbox k { a1 := a1, a0 := a0 })
  | .ffinal k a1 a0 => .block (feistelFinal sbox k { a1 := a1, a0 := a0 })
  | .expkey km => expkeyResponse km
  | .enc blk rk => .block (encryptBlock sbox blk rk)
  | .dec blk rk => .block (decryptBlock sbox blk rk)

theorem expkeyResponse_256 (key : MasterKey) : expkeyResponse ⟨256, key⟩ = .schedule (expandKey key) := by
  simp [expkeyResponse]

theorem expkeyResponse_other {km : KeyMaterial} (h : km.len ≠ 256) : expkeyResponse km = .invalidKeyLength :=
  if_neg h

theorem exec_expkey (km : KeyMaterial) (s : State) :
    exec (.expkey km) s = .next (s.answering (encodeResponse (expkeyResponse km))) := by
  by_cases h : km.len = 256
  · obtain ⟨n, key⟩ := km
    obtain rfl : n = 256 := h
    rw [exec_expkey_256, expkeyResponse_256]
  · rw [exec_expkey_other h, expkeyResponse_other h]

/-- All a request does: its answer is emitted, and of the state the answer depends on the S-box array alone (R29). -/
theorem exec_eq_answering (i : Instr) (s : State) :
    exec i s = .next (s.answering (encodeResponse (responseTo s.config.sbox i))) := by
  cases i with
  | subst w => exact exec_subst w s
  | rotl11 w => exact exec_rotl11 w s
  | gfn k a => exact exec_gfn k a s
  | fstep k a1 a0 => exact exec_fstep k a1 a0 s
  | ffinal k a1 a0 => exact exec_ffinal k a1 a0 s
  | expkey km => exact exec_expkey km s
  | enc blk rk => exact exec_enc blk rk s
  | dec blk rk => exact exec_dec blk rk s

/-- A step on the frame of a request emits the request's answer, whatever the width of the `klen` field. -/
theorem step_asked_encode {i : Instr} {s : State} (hwf : i.wf s.config.klenW = true) :
    step (s.asked (encode s.config.klenW i)) =
      .next (s.answering (encodeResponse (responseTo s.config.sbox i))) :=
  (step_asked_some (decodeFrame_encode hwf)).trans (exec_eq_answering i s)

end Sys2Proof.Machine
end

section
/-! PROOFS. The statement of 00_scope.md: the width of the `klen` field (R10). -/

namespace Sys2Proof.Machine

/-- Settles O32: each core decodes its own frame to the request, and the answer reads no more of the configuration than
the array the two cores share. -/
theorem klenWidthDoesNotMatter : Obligations.KlenWidthDoesNotMatter := by
  intro i s t hsbox hs ht
  refine ⟨encodeResponse (responseTo s.config.sbox i), step_asked_encode hs, ?_⟩
  rw [hsbox]
  exact step_asked_encode ht

end Sys2Proof.Machine
end


section
/-! PROOFS. The statements of 10_state.md: what a step reads and writes (R20, R21, R29, R30) and the state after reset
(R31, R90, R92). -/

namespace Sys2Proof.Machine

/-- A step with no request waiting changes nothing (log entry 5). -/
theorem step_idle {s : State} (h : s.requests = []) : step s = .next s := by
  simp [step, s.takeRequest_nil h]

/-- All a step that goes on can do: nothing, or put one response in the place of the oldest request. -/
theorem step_next_cases {s t : State} (h : step s = .next t) :
    (s.requests = [] ∧ t = s) ∨ ∃ f g rest, s = State.asked rest f ∧ t = State.answering rest g := by
  obtain ⟨hq, h1⟩ | ⟨f, rest, -, -, h1⟩ | ⟨f, rest, i, r, hs, -, h1⟩ := step_cases s <;> rw [h1] at h <;> cases h
  · exact .inl ⟨hq, rfl⟩
  · exact .inr ⟨f, encodeResponse r, rest, hs, rfl⟩

/-- Tables whose rows are permutations of 0 to 15 are bijections (R92): no row names a value twice. -/
theorem isBijective_of_rows_perm {b : SBox} (h : ∀ i : Fin 8, (b[i].toList.map BitVec.toNat).Perm (List.range 16)) :
    b.IsBijective := by
  intro i u v huv
  have hnodup : b[i].toList.Nodup := .of_map BitVec.toNat ((h i).nodup_iff.2 List.nodup_range)
  exact Fin.ext ((hnodup.getElem_inj_iff (hi := by simp) (hj := by simp)).1 huv)

/-- Each row of the table of R90 is a permutation of 0 to 15 (R92). -/
theorem magmaSBox_rows_perm (i : Fin 8) : (magmaSBox[i].toList.map BitVec.toNat).Perm (List.range 16) := by
  revert i
  decide

/-- The parameters of R10 at their stated values are ones the spec admits. -/
theorem magmaConfig_valid : magmaConfig.Valid :=
  ⟨isBijective_of_rows_perm magmaSBox_rows_perm, show 9 ≤ defaultKlenW by decide⟩

/-- Settles O40, from the two kinds of step that go on. -/
theorem stepWritesOnlyTheQueues : Obligations.StepWritesOnlyTheQueues := by
  intro s t h
  obtain ⟨hq, rfl⟩ | ⟨f, g, rest, rfl, rfl⟩ := step_next_cases h
  · exact ⟨rfl, .inl ⟨hq, hq, rfl⟩⟩
  · exact ⟨rfl, .inr ⟨f, g, rfl, rfl⟩⟩

/-- Settles O41: the common answer is `responseTo` of the array the two states share. -/
theorem responseDependsOnRequestAndSboxAlone : Obligations.ResponseDependsOnRequestAndSboxAlone := by
  intro i s t hsbox
  refine ⟨encodeResponse (responseTo s.config.sbox i), exec_eq_answering i s, ?_⟩
  rw [hsbox]
  exact exec_eq_answering i t

/-- Settles O25: the answers to the two operations are functions of their operand alone. -/
theorem rotl11AndExpkeyReadNoSbox : Obligations.Rotl11AndExpkeyReadNoSbox := fun v km s t =>
  ⟨⟨_, exec_rotl11 v s, exec_rotl11 v t⟩, ⟨_, exec_expkey km s, exec_expkey km t⟩⟩

/-- Settles O35: a frame that decodes is run at the state without it; an idle step takes nothing. -/
theorem stepRunsTheDecodedRequest : Obligations.StepRunsTheDecodedRequest :=
  ⟨fun _ _ _ => step_asked_some, fun _ => step_idle⟩

/-- Settles O37: the rows are permutations by inspection of the table, and a step keeps the whole configuration. -/
theorem resetHoldsTheTables : Obligations.ResetHoldsTheTables :=
  ⟨rfl, magmaSBox_rows_perm, fun _ _ h => congrArg Config.sbox (step_config h)⟩

/-- Settles O38: the configuration is valid, and no response has been emitted, which is the model's choice (log entry
4). -/
theorem resetMeetsInvariant : Obligations.ResetMeetsInvariant :=
  ⟨magmaConfig_valid, by simp⟩

end Sys2Proof.Machine
end


section
/-! PROOFS. The statements of 20_memory.md: the SBOX address space (R46) and the independence of transactions (R49,
R50). -/

namespace Sys2Proof.Machine

/-- The two forms of the flat address of R46, for any table number and any index a nibble can hold. -/
theorem flatAddress_eq_append (i v : Nat) (hi : i < 8) (hv : v < 16) :
    BitVec.ofNat 7 (16 * i + v) = BitVec.ofNat 3 i ++ BitVec.ofNat 4 v := by
  apply BitVec.eq_of_toNat_eq
  have hjoin : i <<< 4 ||| v = 16 * i + v := by
    rw [← Nat.shiftLeft_add_eq_or_of_lt hv, Nat.shiftLeft_eq, Nat.mul_comm]
  rw [BitVec.toNat_append, BitVec.toNat_ofNat, BitVec.toNat_ofNat, BitVec.toNat_ofNat, Nat.mod_eq_of_lt hi,
    Nat.mod_eq_of_lt hv, hjoin]
  exact Nat.mod_eq_of_lt (by omega)

/-- The location `i[2:0] || v[3:0]` holds entry `v` of table `i` (R46). -/
theorem sboxReadFlat_ofNat_append (sbox : SBox) (i : Fin 8) (v : Fin 16) :
    sboxReadFlat sbox (BitVec.ofNat 3 i.val ++ BitVec.ofNat 4 v.val) = sbox[i][v] := by
  rw [sboxReadFlat_append]
  simp [sboxRead]

/-- Settles O34: the two forms name one location, which is read as the array is. -/
theorem flatAddressHoldsTheEntry : Obligations.FlatAddressHoldsTheEntry := by
  intro sbox i v
  rw [flatAddress_eq_append i v i.isLt v.isLt]
  exact ⟨sboxReadFlat_ofNat_append sbox i v, sboxReadFlat_ofNat_append sbox i v⟩

/-- Every core of configuration `c` that is asked `f` next answers `x`, whatever else waits or was answered (R49). -/
def Answers (c : Config) (f x : Frame) : Prop :=
  ∀ s : State, s.config = c → step (s.asked f) = .next (s.answering x)

/-- A frame that spells a request has one answer in all cores of a configuration (R29, R49). -/
theorem exists_answers_of_spells {c : Config} {f : Frame} (h : Spells c.klenW f) : ∃ x, Answers c f x := by
  obtain ⟨i, hi⟩ := h
  refine ⟨encodeResponse (responseTo c.sbox i), ?_⟩
  rintro s rfl
  exact (step_asked_some hi).trans (exec_eq_answering i s)

/-- A step that goes on is the first step of a run. -/
theorem core_run_succ {s t : State} (h : step s = .next t) (k : Nat) : core.run (k + 1) s = core.run k t := by
  simp only [Host.Core.run, show core.step s = .next t from h]

/-- A request waiting and a response emitted are in different queues, so their order does not show. -/
theorem State.asked_answering (s : State) (f x : Frame) : (s.asked f).answering x = (s.answering x).asked f := rfl

/-- The first of the requests is answered and what is left is run, with the response already emitted. -/
theorem core_run_asked {s : State} {f x : Frame} (h : Answers s.config f x) (k : Nat) :
    core.run (k + 1) (s.asked f) = core.run k (s.answering x) :=
  core_run_succ (h s rfl) k

/-- Two requests are given their answers, in the order of the requests (log entry 4). -/
theorem core_run_two_asked {s : State} {f g x y : Frame} (hf : Answers s.config f x) (hg : Answers s.config g y) :
    core.run 2 ((s.asked g).asked f) = .next ((s.answering x).answering y) :=
  calc core.run 2 ((s.asked g).asked f)
    _ = core.run 1 ((s.asked g).answering x) := core_run_asked (s := s.asked g) hf 1
    _ = core.run 1 ((s.answering x).asked g) := by rw [s.asked_answering g x]
    _ = core.run 0 ((s.answering x).answering y) := core_run_asked (s := s.answering x) hg 0
    _ = .next ((s.answering x).answering y) := rfl

/-- Settles O42: each frame has one answer in every state of the configuration, so neither answer depends on which
request comes first. -/
theorem requestsCommute : Obligations.RequestsCommute := by
  intro s f g hf hg
  obtain ⟨x, hx⟩ := exists_answers_of_spells hf
  obtain ⟨y, hy⟩ := exists_answers_of_spells hg
  exact ⟨x, y, core_run_two_asked hx hy, core_run_two_asked hy hx⟩

end Sys2Proof.Machine
end


section
/-! PROOFS. Encoding is the inverse of decoding, and the length of a frame decides whether it spells a request (R60 to
R67, R71). -/

namespace Sys2Proof

/-- A bit string is its own lowest `f.len` bits. -/
theorem Bits.mk_field_zero {f : Bits} {n : Nat} (h : f.len = n) : Bits.mk n (f.field 0 n) = f := by
  cases f
  cases h
  exact congrArg (Bits.mk _) BitVec.extractLsb'_eq_self

/-- Two adjacent fields of a bit string together are one field. -/
theorem Bits.field_append_field (f : Bits) (lo w w' : Nat) :
    f.field (lo + w) w' ++ f.field lo w = f.field lo (w' + w) :=
  extract_append_extract f.val lo w w'

/-- A field above the three bits of the code, with the code, is the lower part of the frame. -/
theorem Bits.field_append_code (f : Bits) (w : Nat) : f.field 3 w ++ f.field 0 3 = f.field 0 (w + 3) :=
  f.field_append_field 0 3 w

/-- The three lowest bits of a frame are the code of its operation (R60, R61). -/
theorem code_requestOp (f : Frame) : (requestOp f).code = f.field 0 3 :=
  code_opOfCode _

/-! The frame of each format, put together again from its fields (R63 to R67). -/

theorem append_fields_formatW1 (f : Frame) : f.field 3 32 ++ f.field 0 3 = f.field 0 35 :=
  f.field_append_code 32

theorem append_fields_formatW2 (f : Frame) : f.field 35 32 ++ f.field 3 32 ++ f.field 0 3 = f.field 0 67 :=
  (congrArg (· ++ f.field 0 3) (f.field_append_field 3 32 32)).trans (f.field_append_code 64)

theorem append_fields_formatW3 (f : Frame) :
    f.field 67 32 ++ f.field 35 32 ++ f.field 3 32 ++ f.field 0 3 = f.field 0 99 :=
  (congrArg (· ++ f.field 3 32 ++ f.field 0 3) (f.field_append_field 35 32 32)).trans
    ((congrArg (· ++ f.field 0 3) (f.field_append_field 3 32 64)).trans (f.field_append_code 96))

theorem append_fields_formatBS (f : Frame) : f.field 1027 64 ++ f.field 3 1024 ++ f.field 0 3 = f.field 0 1091 :=
  (congrArg (· ++ f.field 0 3) (f.field_append_field 3 1024 64)).trans (f.field_append_code 1088)

theorem append_fields_formatKM (f : Frame) (klenW n : Nat) :
    f.field (3 + klenW) n ++ f.field 3 klenW ++ f.field 0 3 = f.field 0 (n + klenW + 3) := by
  rw [f.field_append_field 3 klenW n, f.field_append_code]

/-- A length read from the `klen` field fits the field (R66). -/
theorem requestKlen_lt (klenW : Nat) (f : Frame) : requestKlen klenW f < 2 ^ klenW :=
  BitVec.isLt _

/-- The `klen` field of a frame holds the length that is read from it. -/
theorem ofNat_requestKlen (klenW : Nat) (f : Frame) : BitVec.ofNat klenW (requestKlen klenW f) = f.field 3 klenW :=
  (BitVec.ofNat_toNat _ _).trans (BitVec.setWidth_eq _)

/-- What the fields of a frame spell has a frame: the one check, on the length of key material, is met (R66). -/
theorem wf_requestFields (klenW : Nat) (f : Frame) : (requestFields klenW f).wf klenW = true := by
  cases ho : requestOp f <;> simp only [requestFields, ho, Instr.wf]
  exact wf_expkey.2 (requestKlen_lt klenW f)

/-- A frame of the length its fields give is the frame of what they spell (R63 to R67). -/
theorem encode_requestFields {klenW : Nat} {f : Frame} (h : f.len = requestLength klenW f) :
    encode klenW (requestFields klenW f) = f := by
  have hc := code_requestOp f
  cases ho : requestOp f <;> rw [ho] at hc <;> simp only [requestLength, ho] at h <;>
    simp only [requestFields, ho, encode, hc, packSchedule_unpackSchedule]
  case subst => rw [append_fields_formatW1, Bits.mk_field_zero h]
  case rotl11 => rw [append_fields_formatW1, Bits.mk_field_zero h]
  case gfn => rw [append_fields_formatW2, Bits.mk_field_zero h]
  case fstep => rw [append_fields_formatW3, Bits.mk_field_zero h]
  case ffinal => rw [append_fields_formatW3, Bits.mk_field_zero h]
  case expkey =>
    rw [ofNat_requestKlen, append_fields_formatKM]
    exact Bits.mk_field_zero (by omega)
  case enc => rw [append_fields_formatBS, Bits.mk_field_zero h]
  case dec => rw [append_fields_formatBS, Bits.mk_field_zero h]

/-- Settles O26: the frame has the length its fields give, and the fields are the operands. -/
theorem decodeOfEncode : Obligations.DecodeOfEncode :=
  fun _ _ => decodeFrame_encode

/-- Settles O27: a frame that decodes has the length its fields give, so it is its fields put together again. -/
theorem encodeOfDecode : Obligations.EncodeOfDecode := by
  intro klenW f i h
  obtain ⟨hlen, rfl⟩ := decodeFrame_eq_some.1 h
  exact ⟨wf_requestFields klenW f, encode_requestFields hlen⟩

end Sys2Proof
end


section
/-! PROOFS. The length of a frame, in the words of R71, and what a step does with one of another length. -/

namespace Sys2Proof

/-- The length that R71 names for a code: a number for the formats of fixed length, and for EXPKEY one that the `klen`
field gives. -/
def HasLengthOf (klenW klen op len : Nat) : Prop :=
  (op ≤ 1 ∧ len = 35) ∨ (op = 2 ∧ len = 67) ∨ ((op = 3 ∨ op = 4) ∧ len = 99) ∨
    (op = 5 ∧ len = 3 + klenW + klen) ∨ (6 ≤ op ∧ len = 1091)

/-- A frame has the length its fields give exactly when it has the one R71 names for its code and its `klen` field. -/
theorem hasLengthOf_iff {klenW : Nat} {f : Frame} :
    HasLengthOf klenW (requestKlen klenW f) (f.field 0 3).toNat f.len ↔ f.len = requestLength klenW f := by
  rw [← code_requestOp]
  cases ho : requestOp f <;> simp [HasLengthOf, requestLength, ho, Op.code]

end Sys2Proof

namespace Sys2Proof.Machine

/-- Settles O28: the frame decodes exactly when its length is the one its fields give, and a step on one that does not
is refused (log entry 6). -/
theorem lengthAloneDecidesWhatSpellsARequest : Obligations.LengthAloneDecidesWhatSpellsARequest := by
  intro f s
  refine ⟨fun h => ⟨_, decodeFrame_eq_some.2 ⟨hasLengthOf_iff.1 h, rfl⟩⟩, fun h => ?_⟩
  have hnone : decodeFrame s.config.klenW f = none := decodeFrame_eq_none.2 fun hl => h (hasLengthOf_iff.2 hl)
  exact ⟨hnone, step_asked_none hnone⟩

/-- Settles O36: in a core whose field has the width of `decodeTableWord`, the word placed is the frame that was
decoded. -/
theorem tableWordIsTheNextRequest : Obligations.TableWordIsTheNextRequest := by
  intro s nbits w i hw hi
  have hword : s.config.klenW = defaultKlenW := hw
  refine step_asked_some (s := s) (f := frameOfTableWord s.config.klenW nbits w) ?_
  rw [hword]
  exact hi

end Sys2Proof.Machine

namespace Sys2Proof

/-- A frame is decoded to the request it is the frame of. -/
theorem decodeFrame_of_encode_eq {klenW : Nat} {i : Instr} {f : Frame} (hwf : i.wf klenW = true)
    (h : encode klenW i = f) : decodeFrame klenW f = some i :=
  h ▸ decodeFrame_encode hwf

/-- Settles O29: each word is the frame of its request. -/
theorem writtenOutWordsDecode : Obligations.WrittenOutWordsDecode :=
  ⟨decodeFrame_of_encode_eq rfl rfl, decodeFrame_of_encode_eq rfl rfl, decodeFrame_of_encode_eq rfl rfl,
    decodeFrame_of_encode_eq rfl rfl, decodeFrame_of_encode_eq rfl rfl, decodeFrame_of_encode_eq (by decide) rfl,
    decodeFrame_of_encode_eq (by decide) rfl⟩

end Sys2Proof
end

section
/-! PROOFS. The frame of a response: its status bit, its length, and how the caller reads it back (R61, R62, R68,
R69). -/

namespace Sys2Proof

/-- A frame of a result above a status bit of 0 is read back as the result. -/
theorem resultField_append {n : Nat} (x : BitVec n) : resultField n ⟨n + 1, x ++ 0#1⟩ = some x := by
  have hst : responseStatus ⟨n + 1, x ++ 0#1⟩ = 0 := BitVec.extractLsb'_append_eq_right
  have hx : (Bits.mk (n + 1) (x ++ 0#1)).field 1 n = x := BitVec.extractLsb'_append_eq_left
  rw [resultField, if_pos ⟨rfl, hst⟩, hx]

/-- Bit 0 of a result above a status bit of 0. -/
theorem getLsbD_zero_append {n : Nat} (x : BitVec n) : (x ++ 0#1).getLsbD 0 = false := by
  rw [BitVec.getLsbD_append]
  rfl

/-- The status bit is 1 for InvalidKeyLength alone (R68). -/
theorem status_encodeResponse (r : Response) :
    (encodeResponse r).val.getLsbD 0 = true ↔ r = .invalidKeyLength := by
  cases r with
  | word r => simp only [encodeResponse, getLsbD_zero_append, reduceCtorEq]
  | pair p => simp only [encodeResponse, getLsbD_zero_append, reduceCtorEq]
  | block d => simp only [encodeResponse, getLsbD_zero_append, reduceCtorEq]
  | schedule rk => simp only [encodeResponse, getLsbD_zero_append, reduceCtorEq]
  | invalidKeyLength => exact iff_of_true rfl rfl

end Sys2Proof

namespace Sys2Proof.Machine

/-- The frame of every response has one of the forms of R69. -/
theorem isResponseFrame_encodeResponse (r : Response) : IsResponseFrame (encodeResponse r) := by
  cases r with
  | word r => exact .inl ⟨.inl rfl, getLsbD_zero_append r⟩
  | pair p => exact .inl ⟨.inr (.inl rfl), getLsbD_zero_append (p.a1 ++ p.a0)⟩
  | block d => exact .inl ⟨.inr (.inl rfl), getLsbD_zero_append d⟩
  | schedule rk => exact .inl ⟨.inr (.inr rfl), getLsbD_zero_append (packSchedule rk)⟩
  | invalidKeyLength => exact .inr ⟨rfl, rfl⟩

/-- A request waiting is no part of the invariant. -/
theorem State.inv_asked {s : State} {f : Frame} : (s.asked f).Inv ↔ s.Inv := Iff.rfl

/-- The invariant is kept by a response of one of the forms of R69. -/
theorem State.Inv.answering {s : State} {f : Frame} (h : s.Inv) (hf : IsResponseFrame f) : (s.answering f).Inv := by
  obtain ⟨hconfig, hresponses⟩ := h
  refine ⟨hconfig, fun g hg => ?_⟩
  obtain hg | rfl : g ∈ s.responses ∨ g = f := by simpa using hg
  · exact hresponses g hg
  · exact hf

/-- Settles O39: a step that goes on changes nothing or emits the frame of a response. -/
theorem stepKeepsInvariant : Obligations.StepKeepsInvariant := by
  intro s t hinv h
  obtain ⟨-, h1⟩ | ⟨f, rest, -, -, h1⟩ | ⟨f, rest, i, r, rfl, -, h1⟩ := step_cases s <;> rw [h1] at h <;> cases h
  · exact hinv
  · exact (State.inv_asked.1 hinv).answering (isResponseFrame_encodeResponse r)

/-- EXPKEY is answered by the error exactly when the material is not 256 bits long (R121). -/
theorem expkeyResponse_eq_invalidKeyLength {km : KeyMaterial} :
    expkeyResponse km = .invalidKeyLength ↔ km.len ≠ 256 := by
  by_cases h : km.len = 256 <;> simp [expkeyResponse, h]

/-- The one request that is answered by the error (R68). -/
theorem responseTo_eq_invalidKeyLength {sbox : SBox} {i : Instr} :
    responseTo sbox i = .invalidKeyLength ↔ ∃ km : KeyMaterial, i = .expkey km ∧ km.len ≠ 256 := by
  cases i with
  | expkey km => simp [responseTo, expkeyResponse_eq_invalidKeyLength]
  | _ => simp [responseTo]

/-- The length of the answer to EXPKEY (R69). -/
theorem encodeResponse_expkeyResponse_len (km : KeyMaterial) :
    (encodeResponse (expkeyResponse km)).len = if km.len = 256 then 1025 else 1 := by
  by_cases h : km.len = 256
  · rw [expkeyResponse, if_pos h, if_pos h]; rfl
  · rw [expkeyResponse, if_neg h, if_neg h]; rfl

/-- Settles O31: the answer is `responseTo`, whose frame has the length of its format, and whose status bit is 1 for the
error alone. -/
theorem responseLengthAndStatus : Obligations.ResponseLengthAndStatus := by
  intro i s
  refine ⟨encodeResponse (responseTo s.config.sbox i), exec_eq_answering i s,
    (status_encodeResponse _).trans responseTo_eq_invalidKeyLength, ?_⟩
  cases i with
  | expkey km => exact encodeResponse_expkeyResponse_len km
  | _ => rfl

/-- A pair of halves is read back from its 64 bits. -/
theorem decodeResponse_pair (p : Halves) : decodeResponse .fstep (encodeResponse (.pair p)) = some (.pair p) := by
  have h : resultField 64 (encodeResponse (.pair p)) = some (joinHalves p) := resultField_append (joinHalves p)
  rw [decodeResponse, h]
  exact congrArg (fun q => some (Response.pair q)) (splitBlock_joinHalves p)

/-- A schedule is read back from its 1024 bits, and is not taken for the error. -/
theorem decodeResponse_schedule (rk : Schedule) :
    decodeResponse .expkey (encodeResponse (.schedule rk)) = some (.schedule rk) := by
  have h : resultField 1024 (encodeResponse (.schedule rk)) = some (packSchedule rk) := resultField_append _
  have hlen : (encodeResponse (.schedule rk)).len ≠ 1 := show (1025 : Nat) ≠ 1 by decide
  simp [decodeResponse, h, hlen]

/-- The answer to a request is read back by the format of its operation (R61, R69). -/
theorem decodeResponse_responseTo (sbox : SBox) (i : Instr) :
    decodeResponse i.op (encodeResponse (responseTo sbox i)) = some (responseTo sbox i) := by
  cases i with
  | subst w => exact congrArg (Option.map Response.word) (resultField_append _)
  | rotl11 w => exact congrArg (Option.map Response.word) (resultField_append _)
  | gfn k a => exact congrArg (Option.map Response.word) (resultField_append _)
  | fstep k a1 a0 => exact decodeResponse_pair _
  | ffinal k a1 a0 => exact congrArg (Option.map Response.block) (resultField_append _)
  | expkey km =>
    by_cases h : km.len = 256
    · simp only [responseTo, expkeyResponse, if_pos h, Instr.op, decodeResponse_schedule]
    · simp only [responseTo, expkeyResponse_other h, Instr.op]
      rfl
  | enc blk rk => exact congrArg (Option.map Response.block) (resultField_append _)
  | dec blk rk => exact congrArg (Option.map Response.block) (resultField_append _)

/-- Settles O30: the response is `responseTo`. -/
theorem callerReadsBackTheResponse : Obligations.CallerReadsBackTheResponse := fun i s =>
  ⟨responseTo s.config.sbox i, exec_eq_answering i s, decodeResponse_responseTo _ i⟩

end Sys2Proof.Machine
end


section
/-! PROOFS. The text of numbers: digits that are printed are read back (R43, R73). -/

namespace Sys2Proof.Machine

/-- A character that is a digit of some base up to sixteen. -/
abbrev IsDigit (c : Char) : Prop := (digitValue c).isSome

/-- A digit printed is read back as its value. -/
theorem digitValue_digitChar {d : Nat} (h : d < 16) : digitValue (digitChar d) = some d := by
  revert d
  decide

theorem isDigit_digitChar {d : Nat} (h : d < 16) : IsDigit (digitChar d) := by
  simp [IsDigit, digitValue_digitChar h]

/-- Every character of a hexadecimal text is a digit. -/
theorem isDigit_of_mem_hexText {n v : Nat} {c : Char} (h : c ∈ hexText n v) : IsDigit c := by
  induction n generalizing v with
  | zero => cases h
  | succ n ih =>
    obtain h | rfl : c ∈ hexText n (v / 16) ∨ c = digitChar (v % 16) := by simpa [hexText] using h
    · exact ih h
    · exact isDigit_digitChar (Nat.mod_lt _ (by decide))

/-- Every character of a decimal text is a digit. -/
theorem isDigit_of_mem_decimalText {fuel v : Nat} {c : Char} (h : c ∈ decimalText fuel v) : IsDigit c := by
  have hlast : IsDigit (digitChar (v % 10)) := isDigit_digitChar (by omega)
  induction fuel generalizing v with
  | zero =>
    obtain rfl := List.mem_singleton.1 h
    exact hlast
  | succ fuel ih =>
    rw [decimalText] at h
    split at h
    case isTrue hv =>
      obtain rfl := List.mem_singleton.1 h
      exact isDigit_digitChar (by omega)
    case isFalse hv =>
      obtain h | rfl : c ∈ decimalText fuel (v / 10) ∨ c = digitChar (v % 10) := by simpa using h
      · exact ih h (isDigit_digitChar (by omega))
      · exact hlast

@[simp] theorem length_hexText (n v : Nat) : (hexText n v).length = n := by
  induction n generalizing v with
  | zero => rfl
  | succ n ih => simp [hexText, ih]

theorem decimalText_ne_nil (fuel v : Nat) : decimalText fuel v ≠ [] := by
  cases fuel with
  | zero => simp [decimalText]
  | succ fuel => by_cases h : v < 10 <;> simp [decimalText, h]

@[simp] theorem readDigits_nil (base : Nat) : readDigits base [] = some 0 := rfl

/-- One more digit at the right end of a number. -/
theorem readDigits_append_digit {base a d : Nat} {text : List Char} (ht : readDigits base text = some a)
    (hd : d < base) (hbase : base ≤ 16) : readDigits base (text ++ [digitChar d]) = some (base * a + d) := by
  have hv : digitValue (digitChar d) = some d := digitValue_digitChar (by omega)
  rw [readDigits] at ht
  rw [readDigits, List.foldl_append, ht]
  simp [hv, hd]

/-- A hexadecimal text is read as the number it was printed from, cut at its length. -/
theorem readDigits_hexText (n v : Nat) : readDigits 16 (hexText n v) = some (v % 16 ^ n) := by
  induction n generalizing v with
  | zero => simp [hexText, Nat.mod_one]
  | succ n ih =>
    rw [hexText, readDigits_append_digit (ih (v / 16)) (Nat.mod_lt _ (by decide)) le_rfl, Nat.pow_succ',
      Nat.mod_mul, Nat.add_comm]

/-- A decimal text with room for all its digits is read as the number it was printed from. -/
theorem readDigits_decimalText {fuel v : Nat} (h : v < 10 ^ (fuel + 1)) :
    readDigits 10 (decimalText fuel v) = some v := by
  have single {d : Nat} (hd : d < 10) : readDigits 10 [digitChar d] = some d := by
    simpa using readDigits_append_digit (readDigits_nil 10) hd (by decide)
  induction fuel generalizing v with
  | zero =>
    rw [decimalText, Nat.mod_eq_of_lt (by simpa using h)]
    exact single (by simpa using h)
  | succ fuel ih =>
    rw [decimalText]
    split
    case isTrue hv => exact single hv
    case isFalse hv =>
      have hdiv : v / 10 < 10 ^ (fuel + 1) := Nat.div_lt_of_lt_mul (by rwa [← Nat.pow_succ'])
      rw [readDigits_append_digit (ih hdiv) (by omega) (by decide), Nat.div_add_mod]

/-- A literal of `n` hexadecimal characters is read back, where the number fits them (R73). -/
theorem readHex_hexText {n v : Nat} (h : v < 16 ^ n) : readHex n (hexText n v) = some v := by
  rw [readHex, if_pos (length_hexText n v), readDigits_hexText, Nat.mod_eq_of_lt h]

@[simp] theorem readWord_wordText (w : Word) : readWord (wordText w) = some w := by
  have hw : w.toNat < 16 ^ 8 := w.isLt
  simp [readWord, wordText, readHex_hexText hw]

@[simp] theorem readBlock_blockText (b : Block) : readBlock (blockText b) = some b := by
  have hb : b.toNat < 16 ^ 16 := b.isLt
  simp [readBlock, blockText, readHex_hexText hb]

/-- The digits of key material are enough for its bits (R73). -/
theorem toNat_lt_pow_digits (km : KeyMaterial) : km.val.toNat < 16 ^ ((km.len + 3) / 4) :=
  calc km.val.toNat
    _ < 2 ^ km.len := km.val.isLt
    _ ≤ 2 ^ (4 * ((km.len + 3) / 4)) := Nat.pow_le_pow_right (by decide) (by omega)
    _ = 16 ^ ((km.len + 3) / 4) := Nat.pow_mul 2 4 _

/-- The digits of key material are read back as the material, once its length is known. -/
theorem keyOfDigits_hexText {km : KeyMaterial} {klen n : Nat} (hlen : km.len = klen) (hn : (klen + 3) / 4 = n) :
    keyOfDigits klen (hexText n km.val.toNat) = some km := by
  subst hlen hn
  simp [keyOfDigits, readHex_hexText (toNat_lt_pow_digits km), km.val.isLt]

end Sys2Proof.Machine
end

section
/-! PROOFS. The text of a request: its operands are found again between the separators, and each is read back (R72,
R73). -/

namespace Sys2Proof.Machine

/-- A text is cut off at the first occurrence of a character it does not hold itself. -/
theorem span_ne_append_cons {c : Char} {t : List Char} (h : c ∉ t) (rest : List Char) :
    (t ++ c :: rest).span (· != c) = (t, c :: rest) := by
  have hall : ∀ x ∈ t, (x != c) = true := fun x hx => bne_iff_ne.2 fun he => h (he ▸ hx)
  rw [List.span_eq_takeWhile_dropWhile, List.takeWhile_append_of_pos hall, List.dropWhile_append_of_pos hall]
  simp

/-- A text that does not hold a character is not cut off. -/
theorem span_ne_of_notMem {c : Char} {t : List Char} (h : c ∉ t) : t.span (· != c) = (t, []) := by
  have hall : ∀ x ∈ t, (x != c) = true := fun x hx => bne_iff_ne.2 fun he => h (he ▸ hx)
  rw [List.span_eq_takeWhile_dropWhile, List.takeWhile_eq_self_iff.2 hall, List.dropWhile_eq_nil_iff.2 hall]

/-- No separator of R72 and R73 stands among the digits of a number. -/
theorem notMem_hexText {c : Char} (hc : ¬ IsDigit c) (n v : Nat) : c ∉ hexText n v :=
  mt isDigit_of_mem_hexText hc

theorem notMem_decimalText {c : Char} (hc : ¬ IsDigit c) (fuel v : Nat) : c ∉ decimalText fuel v :=
  mt isDigit_of_mem_decimalText hc

theorem notMem_wordText {c : Char} (hc : ¬ IsDigit c) (w : Word) : c ∉ wordText w :=
  notMem_hexText hc 8 w.toNat

/-- Material with no length in front is read as 256 bits (R73). -/
theorem readKey_of_no_length {digits : List Char} (hq : '\'' ∉ digits) : readKey digits = keyOfDigits 256 digits := by
  rw [readKey, span_ne_of_notMem hq]

/-- Material with its length in front is read by both (R73). -/
theorem readKey_of_length {len digits : List Char} (hne : len ≠ []) (hq : '\'' ∉ len) :
    readKey (len ++ '\'' :: 'h' :: digits) = (readDigits 10 len).bind fun klen => keyOfDigits klen digits := by
  rw [readKey, span_ne_append_cons hq]
  cases len with
  | nil => exact absurd rfl hne
  | cons c cs => rfl

/-- Key material is read back in either form (R73). -/
@[simp] theorem readKey_keyText (km : KeyMaterial) : readKey (keyText km) = some km := by
  rw [keyText]
  split
  case isTrue h =>
    exact (readKey_of_no_length (notMem_hexText (by decide) _ _)).trans (keyOfDigits_hexText h rfl)
  case isFalse h =>
    have hlen : km.len < 10 ^ (km.len + 1) :=
      (Nat.lt_pow_self (by decide)).trans (Nat.pow_lt_pow_right (by decide) (Nat.lt_succ_self _))
    rw [List.append_assoc]
    exact (readKey_of_length (decimalText_ne_nil _ _) (notMem_decimalText (by decide) _ _)).trans
      (by rw [readDigits_decimalText hlen]; exact keyOfDigits_hexText rfl rfl)

/-! Cutting at a separator undoes joining with it. -/

theorem cutAt_cons_self (c : Char) (rest : List Char) : cutAt c (c :: rest) = [] :: cutAt c rest := by
  simp [cutAt]

theorem cutAt_cons_ne {c x : Char} (h : x ≠ c) {rest p : List Char} {ps : List (List Char)}
    (hr : cutAt c rest = p :: ps) : cutAt c (x :: rest) = (x :: p) :: ps := by
  rw [cutAt] at hr
  simp [cutAt, h, hr]

/-- The first piece is what stands before the first separator. -/
theorem cutAt_append_cons {c : Char} {t : List Char} (h : c ∉ t) (rest : List Char) :
    cutAt c (t ++ c :: rest) = t :: cutAt c rest := by
  induction t with
  | nil => exact cutAt_cons_self c rest
  | cons x xs ih =>
    obtain ⟨hx, hxs⟩ := not_or.1 (mt List.mem_cons.2 h)
    exact cutAt_cons_ne (Ne.symm hx) (ih hxs)

/-- A text without the separator is one piece. -/
theorem cutAt_of_notMem {c : Char} {t : List Char} (h : c ∉ t) : cutAt c t = [t] := by
  induction t with
  | nil => rfl
  | cons x xs ih =>
    obtain ⟨hx, hxs⟩ := not_or.1 (mt List.mem_cons.2 h)
    exact cutAt_cons_ne (Ne.symm hx) (ih hxs)

/-- What stands before joined texts stands before the first of them. -/
theorem append_joinWith (p sep t : List Char) (ts : List (List Char)) :
    p ++ joinWith sep (t :: ts) = joinWith sep ((p ++ t) :: ts) := by
  cases ts <;> simp [joinWith]

/-- Cutting at the first character of a separator leaves the rest of it in front of every later text. -/
theorem cutAt_joinWith {c : Char} {p : List Char} (hp : c ∉ p) {t : List Char} {ts : List (List Char)}
    (ht : c ∉ t) (hts : ∀ u ∈ ts, c ∉ u) :
    cutAt c (joinWith (c :: p) (t :: ts)) = t :: ts.map (p ++ ·) := by
  induction ts generalizing t with
  | nil => exact cutAt_of_notMem ht
  | cons u us ih =>
    obtain ⟨hu, hus⟩ := List.forall_mem_cons.1 hts
    have hpu : c ∉ p ++ u := by simp [hp, hu]
    calc cutAt c (joinWith (c :: p) (t :: u :: us))
      _ = cutAt c (t ++ c :: (p ++ joinWith (c :: p) (u :: us))) := by simp [joinWith]
      _ = t :: cutAt c (joinWith (c :: p) ((p ++ u) :: us)) := by rw [cutAt_append_cons ht, append_joinWith]
      _ = t :: (u :: us).map (p ++ ·) := by rw [ih hpu hus, List.map_cons]

/-- A text that can stand between commas and keep its ends when trimmed. -/
structure IsOperandText (t : List Char) : Prop where
  no_comma : ',' ∉ t
  head_ne_blank : t.head? ≠ some ' '
  last_ne_blank : t.getLast? ≠ some ' '

theorem dropWhile_blank {t : List Char} (h : t.head? ≠ some ' ') : t.dropWhile (· == ' ') = t := by
  cases t with
  | nil => rfl
  | cons x xs =>
    have hx : x ≠ ' ' := by simpa using h
    simp [hx]

/-- Trimming removes the blank in front of an operand and nothing else. -/
theorem trim_blank_cons {t : List Char} (h : IsOperandText t) : trim (' ' :: t) = t := by
  have hfront : (' ' :: t).dropWhile (· == ' ') = t := by simpa using dropWhile_blank h.head_ne_blank
  have hback : t.reverse.dropWhile (· == ' ') = t.reverse :=
    dropWhile_blank (by rw [List.head?_reverse]; exact h.last_ne_blank)
  rw [trim, hfront, hback, List.reverse_reverse]

/-- The operands of a line are found again between its commas (R72). -/
theorem map_trim_cutAt_joinWith {ts : List (List Char)} (hne : ts ≠ []) (h : ∀ t ∈ ts, IsOperandText t) :
    (cutAt ',' (' ' :: joinWith [',', ' '] ts)).map trim = ts := by
  cases ts with
  | nil => exact absurd rfl hne
  | cons t us =>
    obtain ⟨ht, hus⟩ := List.forall_mem_cons.1 h
    have hjoin : ' ' :: joinWith [',', ' '] (t :: us) = joinWith [',', ' '] ((' ' :: t) :: us) :=
      append_joinWith [' '] _ t us
    have hblank : ',' ∉ ' ' :: t := List.not_mem_cons_of_ne_of_not_mem (by decide) ht.no_comma
    rw [hjoin, cutAt_joinWith (by decide) hblank fun u hu => (hus u hu).no_comma, List.map_cons, trim_blank_cons ht,
      List.map_map]
    exact congrArg (t :: ·) ((List.map_congr_left fun u hu => trim_blank_cons (hus u hu)).trans (List.map_id us))

/-! Schedules: 32 words between braces (R73). -/

theorem wordText_ne_nil (w : Word) : wordText w ≠ [] :=
  List.ne_nil_of_length_pos (by simp [wordText])

/-- The words of a text are found again between its blanks. -/
theorem cutAt_joinWith_wordTexts {ws : List Word} (hne : ws ≠ []) :
    cutAt ' ' (joinWith [' '] (ws.map wordText)) = ws.map wordText := by
  cases ws with
  | nil => exact absurd rfl hne
  | cons w ws =>
    refine (cutAt_joinWith (p := []) (by simp) (notMem_wordText (by decide) w) ?_).trans (by simp)
    exact List.forall_mem_map.2 fun u _ => notMem_wordText (by decide) u

/-- Every word of a text is read back. -/
theorem mapM_readWord_wordTexts (ws : List Word) : (ws.map wordText).mapM readWord = some ws := by
  induction ws with
  | nil => rfl
  | cons w ws ih => simp [ih]

theorem scheduleOfWords_toList (rk : Schedule) : scheduleOfWords rk.toList = some rk := by
  rw [scheduleOfWords, dif_pos rk.length_toList]
  exact congrArg some (Vector.toArray_inj.1 rk.toArray_toList)

/-- What stands between the braces is read word by word. -/
theorem readSchedule_braces (body : List Char) :
    readSchedule ([openBrace] ++ body ++ [closeBrace]) =
      (((cutAt ' ' body).filter (· ≠ [])).mapM readWord).bind scheduleOfWords := by
  simp [readSchedule]

/-- A schedule is read back (R73). -/
@[simp] theorem readSchedule_scheduleText (rk : Schedule) : readSchedule (scheduleText rk) = some rk := by
  have hne : rk.toList ≠ [] := List.ne_nil_of_length_pos (by simp)
  have hfilter : (rk.toList.map wordText).filter (· ≠ []) = rk.toList.map wordText :=
    List.filter_eq_self.2 (by simp [wordText_ne_nil])
  rw [scheduleText, readSchedule_braces, cutAt_joinWith_wordTexts hne, hfilter, mapM_readWord_wordTexts]
  exact scheduleOfWords_toList rk

/-! Every operand's text can stand between commas. -/

/-- A text with no comma and no blank can stand between commas. -/
theorem isOperandText_of_notMem {t : List Char} (hcomma : ',' ∉ t) (hblank : ' ' ∉ t) : IsOperandText t where
  no_comma := hcomma
  head_ne_blank := mt List.mem_of_head? hblank
  last_ne_blank := mt List.mem_of_getLast? hblank

theorem isOperandText_hexText (n v : Nat) : IsOperandText (hexText n v) :=
  isOperandText_of_notMem (notMem_hexText (by decide) n v) (notMem_hexText (by decide) n v)

/-- A character that is no digit and does not mark a length is not in the text of key material. -/
theorem notMem_keyText {c : Char} (hc : ¬ IsDigit c) (hmark : c ∉ ['\'', 'h']) (km : KeyMaterial) :
    c ∉ keyText km := by
  rw [keyText]
  split
  · exact notMem_hexText hc _ _
  · rw [List.mem_append, List.mem_append]
    exact not_or.2 ⟨not_or.2 ⟨notMem_decimalText hc _ _, hmark⟩, notMem_hexText hc _ _⟩

theorem isOperandText_keyText (km : KeyMaterial) : IsOperandText (keyText km) :=
  isOperandText_of_notMem (notMem_keyText (by decide) (by decide) km) (notMem_keyText (by decide) (by decide) km)

/-- What stands neither in the separator nor in a text does not stand in the joined texts. -/
theorem notMem_joinWith {c : Char} {sep : List Char} (hsep : c ∉ sep) {ts : List (List Char)} (h : ∀ t ∈ ts, c ∉ t) :
    c ∉ joinWith sep ts := by
  induction ts with
  | nil => exact List.not_mem_nil
  | cons t us ih =>
    obtain ⟨ht, hus⟩ := List.forall_mem_cons.1 h
    cases us with
    | nil => exact ht
    | cons u us => simpa only [joinWith, List.mem_append, not_or] using ⟨⟨ht, hsep⟩, ih hus⟩

theorem isOperandText_scheduleText (rk : Schedule) : IsOperandText (scheduleText rk) where
  no_comma := by
    have hbody : ',' ∉ joinWith [' '] (rk.toList.map wordText) :=
      notMem_joinWith (by decide) (List.forall_mem_map.2 fun w _ => notMem_wordText (by decide) w)
    rw [scheduleText, List.mem_append, List.mem_append]
    exact not_or.2 ⟨not_or.2 ⟨by decide, hbody⟩, by decide⟩
  head_ne_blank := show some openBrace ≠ some ' ' by decide
  last_ne_blank := by rw [scheduleText, List.getLast?_concat]; decide

theorem isOperandText_of_mem_operandTexts {i : Instr} {t : List Char} (h : t ∈ operandTexts i) : IsOperandText t := by
  have hword (w : Word) : IsOperandText (wordText w) := isOperandText_hexText 8 w.toNat
  have hblock (b : Block) : IsOperandText (blockText b) := isOperandText_hexText 16 b.toNat
  revert t
  cases i with
  | subst w => simp [operandTexts, hword]
  | rotl11 w => simp [operandTexts, hword]
  | gfn k a => simp [operandTexts, hword]
  | fstep k a1 a0 => simp [operandTexts, hword]
  | ffinal k a1 a0 => simp [operandTexts, hword]
  | expkey km => simp [operandTexts, isOperandText_keyText]
  | enc blk rk => simp [operandTexts, hblock, isOperandText_scheduleText]
  | dec blk rk => simp [operandTexts, hblock, isOperandText_scheduleText]

theorem operandTexts_ne_nil (i : Instr) : operandTexts i ≠ [] := by
  cases i <;> exact List.cons_ne_nil _ _

/-- The operands of a request, each read back, make the request. -/
theorem requestOfOperands_operandTexts (i : Instr) : requestOfOperands i.op (operandTexts i) = some i := by
  cases i <;> simp [Instr.op, operandTexts, requestOfOperands]

theorem opOfMnemonic_mnemonic (o : Op) : opOfMnemonic (mnemonic o) = some o := by
  cases o <;> decide

theorem blank_notMem_mnemonic (o : Op) : ' ' ∉ mnemonic o := by
  cases o <;> decide

/-- A line is read as its mnemonic says, from what stands behind the blank (R72). -/
theorem assemble_mnemonic_append (o : Op) (rest : List Char) :
    assemble (mnemonic o ++ ' ' :: rest) = requestOfOperands o ((cutAt ',' (' ' :: rest)).map trim) := by
  rw [assemble, span_ne_append_cons (blank_notMem_mnemonic o)]
  exact congrArg (Option.bind · _) (opOfMnemonic_mnemonic o)

/-- Settles O33: the mnemonic ends at the first blank, the operands are what stands between the commas, and each operand
is read back. -/
theorem assembleOfRequestText : Obligations.AssembleOfRequestText := by
  intro i
  rw [requestText, List.append_assoc, List.singleton_append, assemble_mnemonic_append,
    map_trim_cutAt_joinWith (operandTexts_ne_nil i) fun t => isOperandText_of_mem_operandTexts]
  exact requestOfOperands_operandTexts i

end Sys2Proof.Machine
end


section
/-! PROOFS. The statements of 40_sbox_substitution.md about every S-box array: SUBST nibble by nibble (R91), its inverse
(R92, R93) and the array read through it (R94). -/

namespace Sys2Proof.Machine

/-- A request is answered by one frame and no other: two states that differ in the frame emitted differ. -/
theorem exec_eq_answering_iff {i : Instr} {s : State} {f : Frame} :
    exec i s = .next (s.answering f) ↔ encodeResponse (responseTo s.config.sbox i) = f := by
  rw [exec_eq_answering]
  simp [State.answering]

/-- The frame of a word fixes the word (R69). -/
theorem encodeResponse_word_eq_iff {x r : Word} : encodeResponse (.word x) = ⟨33, r ++ 0#1⟩ ↔ x = r := by
  simpa [encodeResponse] using BitVec.append_left_inj (s₁ := x) (s₂ := r) 0#1

theorem exec_subst_iff {a r : Word} {s : State} :
    exec (.subst a) s = .next (s.answering ⟨33, r ++ 0#1⟩) ↔ substitute s.config.sbox a = r :=
  exec_eq_answering_iff.trans encodeResponse_word_eq_iff

/-- Settles O1: the answer is `t(a)`, whose nibbles are the entries. -/
theorem substReplacesEachNibble : Obligations.SubstReplacesEachNibble := fun a s =>
  ⟨substitute s.config.sbox a, substitute_nibble s.config.sbox a, exec_subst a s,
    step_asked_encode (i := .subst a) rfl⟩

/-! ## The inverse (R93) -/

/-- An entry named by its index and the same entry read by a nibble. -/
theorem sboxRead_ofNat (b : SBox) (i : Fin 8) (v : Fin 16) : sboxRead b i (BitVec.ofNat 4 v) = b[i][v] := by
  simp [sboxRead]

/-- A table that is a bijection holds no nibble at two indices (R92). -/
theorem sboxRead_injective {b : SBox} (hb : b.IsBijective) (i : Fin 8) : Function.Injective (sboxRead b i) := by
  intro x y hxy
  have hindex : (⟨x.toNat, x.isLt⟩ : Fin 16) = ⟨y.toNat, y.isLt⟩ := hb i _ _ hxy
  exact BitVec.eq_of_toNat_eq (Fin.mk.inj hindex)

/-- Words with the same image have, nibble by nibble, the same entry, hence the same index. -/
theorem substitute_injective {b : SBox} (hb : b.IsBijective) : Function.Injective (substitute b) := by
  intro x y hxy
  refine word_eq_of_nibbles fun i => sboxRead_injective hb i ?_
  rw [← substitute_nibble, ← substitute_nibble, hxy]

/-- `t` is a bijection on the 32-bit space when each table is one (R93): it is injective on finitely many words. -/
theorem substitute_bijective {b : SBox} (hb : b.IsBijective) : Function.Bijective (substitute b) :=
  Finite.injective_iff_bijective.1 (substitute_injective hb)

/-- Nibble `i` of the operand is the index at which table `i` holds nibble `i` of the answer (R93). -/
theorem nibble_eq_of_entry_eq {b : SBox} (hb : b.IsBijective) {a : Word} {i : Fin 8} {v : Fin 16}
    (hv : b[i][v] = nibble (substitute b a) i) : nibble a i = BitVec.ofNat 4 v := by
  apply sboxRead_injective hb i
  rw [sboxRead_ofNat, hv, substitute_nibble]

/-- Settles O21: `t` is surjective, which gives the operand, and injective, which makes it the only one. -/
theorem substIsBijective : Obligations.SubstIsBijective := by
  intro r s hb
  obtain ⟨a, rfl⟩ := (substitute_bijective hb).surjective r
  exact ⟨a, exec_subst a s, fun i v hv => nibble_eq_of_entry_eq hb hv,
    fun b hexec => substitute_injective hb (exec_subst_iff.1 hexec)⟩

/-! ## Reading the array (R94) -/

/-- Where a nibble of the operand is the index `v`, the answer shows entry `v` of that nibble's table. -/
theorem nibble_substitute_of_nibble_eq (b : SBox) {a : Word} {i : Fin 8} {v : Fin 16}
    (ha : nibble a i = BitVec.ofNat 4 v) : nibble (substitute b a) i = b[i][v] := by
  rw [substitute_nibble, ha, sboxRead_ofNat]

/-- All eight nibbles of `v * 0x11111111` are `v`. -/
theorem nibble_repeated (v : Fin 16) (i : Fin 8) :
    nibble (BitVec.ofNat 32 (v.val * 0x11111111)) i = BitVec.ofNat 4 v := by
  revert v i
  decide

/-- Bit `n` of nibble `j` of a number shifted to nibble `i`. -/
theorem getLsbD_nibble_shifted (v i j n : Nat) (hj : j < 8) (hn : n < 4) :
    (nibble (BitVec.ofNat 32 (v * 2 ^ (4 * i))) j).getLsbD n =
      (decide (4 * i ≤ 4 * j + n) && v.testBit (4 * j + n - 4 * i)) := by
  rw [nibble, BitVec.getLsbD_extractLsb', BitVec.getLsbD_ofNat, Nat.testBit_mul_two_pow]
  simp [hn, show 4 * j + n < 32 by omega]

/-- A nibble shifted to position `i` stands there. -/
theorem nibble_shifted_self (v : Fin 16) (i : Fin 8) :
    nibble (BitVec.ofNat 32 (v.val * 2 ^ (4 * i.val))) i = BitVec.ofNat 4 v := by
  apply BitVec.eq_of_getLsbD_eq
  intro n hn
  rw [getLsbD_nibble_shifted _ _ _ _ i.isLt hn]
  simp [hn]

/-- A nibble shifted to position `i` leaves the other positions zero. -/
theorem nibble_shifted_other (v : Fin 16) {i j : Fin 8} (hij : j ≠ i) :
    nibble (BitVec.ofNat 32 (v.val * 2 ^ (4 * i.val))) j = 0 := by
  apply BitVec.eq_of_getLsbD_eq
  intro n hn
  rw [getLsbD_nibble_shifted _ _ _ _ j.isLt hn]
  obtain hlt | hgt := Nat.lt_or_gt_of_ne (Fin.val_ne_of_ne hij)
  · simp [show ¬ 4 * i.val ≤ 4 * j.val + n by omega]
  · have hv : v.val < 2 ^ (4 * j.val + n - 4 * i.val) :=
      v.isLt.trans_le (Nat.pow_le_pow_right (n := 2) (i := 4) (by decide) (by omega))
    simp [Nat.testBit_lt_two_pow hv]

/-- Settles O22: the nibbles of both operands are known, and each is replaced by its own table's entry. -/
theorem sboxIsReadThroughSubst : Obligations.SboxIsReadThroughSubst := fun v s =>
  ⟨⟨_, exec_subst _ s, fun i => nibble_substitute_of_nibble_eq _ (nibble_repeated v i)⟩,
    fun i => ⟨_, exec_subst _ s, nibble_substitute_of_nibble_eq _ (nibble_shifted_self v i),
      fun _ hj => nibble_substitute_of_nibble_eq _ (v := 0) (nibble_shifted_other v hj)⟩⟩

end Sys2Proof.Machine
end


section
/-! PROOFS. The statements about numbers, on a core that holds the table of R90 (log entry 2): the worked examples of
R91, R100, R105, R110 and R111, and the known-answer vector of R120, R130 and R131. -/

namespace Sys2Proof.Machine

/-- On a core that holds the table of R90 a request is answered by what that table gives. -/
theorem exec_of_magmaSBox {s : State} (hs : s.config.sbox = magmaSBox) {i : Instr} {f : Frame}
    (hf : encodeResponse (responseTo magmaSBox i) = f) : exec i s = .next (s.answering f) :=
  exec_eq_answering_iff.2 (by rw [hs, hf])

/-- Settles O11: the fourteen answers are computed from the table. -/
theorem workedExamplesOfTheTransforms : Obligations.WorkedExamplesOfTheTransforms := by
  intro s hs
  and_intros <;> exact exec_of_magmaSBox hs rfl

/-- The key of the known-answer vector (R120). -/
def knownKey : MasterKey := 0xffeeddccbbaa99887766554433221100f0f1f2f3f4f5f6f7f8f9fafbfcfdfeff

/-- The schedule of the known-answer vector (R120). -/
def knownSchedule : Schedule :=
  #v[0xffeeddcc, 0xbbaa9988, 0x77665544, 0x33221100, 0xf0f1f2f3, 0xf4f5f6f7, 0xf8f9fafb, 0xfcfdfeff,
     0xffeeddcc, 0xbbaa9988, 0x77665544, 0x33221100, 0xf0f1f2f3, 0xf4f5f6f7, 0xf8f9fafb, 0xfcfdfeff,
     0xffeeddcc, 0xbbaa9988, 0x77665544, 0x33221100, 0xf0f1f2f3, 0xf4f5f6f7, 0xf8f9fafb, 0xfcfdfeff,
     0xfcfdfeff, 0xf8f9fafb, 0xf4f5f6f7, 0xf0f1f2f3, 0x33221100, 0x77665544, 0xbbaa9988, 0xffeeddcc]

theorem expandKey_knownKey : expandKey knownKey = knownSchedule := rfl

theorem encryptBlock_knownSchedule :
    encryptBlock magmaSBox 0xfedcba9876543210 knownSchedule = 0x4ee901e5c2d8ca3d := rfl

theorem decryptBlock_knownSchedule :
    decryptBlock magmaSBox 0x4ee901e5c2d8ca3d knownSchedule = 0xfedcba9876543210 := rfl

theorem encryptBlock_zero : encryptBlock magmaSBox 0 (Vector.replicate 32 0) = 0x78b6bd4a81726659 := rfl

/-- The frame of a 64-bit answer, once the block is known (R69). -/
theorem encodeResponse_block_of_eq {x d : Block} (h : x = d) : encodeResponse (.block x) = ⟨65, d ++ 0#1⟩ :=
  h ▸ rfl

/-- Settles O12: the schedule, the two blocks and the zero case are computed from the key and the table. -/
theorem knownAnswerVector : Obligations.KnownAnswerVector := by
  rintro rk s hs rfl
  have hexpkey := exec_expkey_256 knownKey s
  rw [expandKey_knownKey] at hexpkey
  exact ⟨⟨packSchedule knownSchedule, hexpkey, fun i => extract_packSchedule knownSchedule i i.isLt⟩,
    exec_of_magmaSBox hs (encodeResponse_block_of_eq encryptBlock_knownSchedule),
    exec_of_magmaSBox hs (encodeResponse_block_of_eq decryptBlock_knownSchedule),
    exec_of_magmaSBox hs (encodeResponse_block_of_eq encryptBlock_zero)⟩

end Sys2Proof.Machine
end

section
/-! PROOFS. The statements of 41_rotation.md: ROTL11 as a rotation within 32 bits (R100), its inverse and its order
(R101, R102). Everything follows from where a rotation takes each bit. -/

namespace Sys2Proof.Machine

/-- A rotation by `n` takes bit `j` to bit `(j + n) mod 32`. -/
theorem getLsbD_rotateLeft_add_mod (v : Word) (n : Nat) {j : Nat} (hj : j < 32) :
    (v.rotateLeft n).getLsbD ((j + n) % 32) = v.getLsbD j := by
  rw [BitVec.getLsbD_rotateLeft]
  by_cases hwrap : j + n % 32 < 32
  · rw [show (j + n) % 32 = j + n % 32 by omega]
    simp [hwrap]
  · rw [show (j + n) % 32 = j + n % 32 - 32 by omega]
    simp [show j + n % 32 - 32 < n % 32 by omega, show 32 - n % 32 + (j + n % 32 - 32) = j by omega]

/-- A word whose bits are those of `v`, each `n` positions on, is `v` rotated by `n`. -/
theorem eq_rotateLeft_of_getLsbD_add_mod {r v : Word} {n : Nat}
    (h : ∀ j < 32, r.getLsbD ((j + n) % 32) = v.getLsbD j) : r = v.rotateLeft n := by
  apply BitVec.eq_of_getLsbD_eq
  intro i hi
  have hsource : ((i + (32 - n % 32)) % 32 + n) % 32 = i := by omega
  have hj : (i + (32 - n % 32)) % 32 < 32 := Nat.mod_lt _ (by decide)
  rw [← hsource, h _ hj, getLsbD_rotateLeft_add_mod v n hj]

/-- Two rotations are one, by the sum of the distances. -/
theorem rotateLeft_rotateLeft (v : Word) (m n : Nat) : (v.rotateLeft m).rotateLeft n = v.rotateLeft (m + n) := by
  apply eq_rotateLeft_of_getLsbD_add_mod
  intro j hj
  have htwice : (j + (m + n)) % 32 = ((j + m) % 32 + n) % 32 := by omega
  rw [htwice, getLsbD_rotateLeft_add_mod _ n (Nat.mod_lt _ (by decide)), getLsbD_rotateLeft_add_mod v m hj]

/-- A rotation is known by its distance mod 32. -/
theorem rotateLeft_eq_of_mod_eq (v : Word) {m n : Nat} (h : m % 32 = n % 32) : v.rotateLeft m = v.rotateLeft n := by
  rw [← BitVec.rotateLeft_mod_eq_rotateLeft, h, BitVec.rotateLeft_mod_eq_rotateLeft]

/-- The rotations that change no word are those by a multiple of 32: any other moves the bit of the word 1. -/
theorem forall_rotateLeft_eq_self_iff {n : Nat} : (∀ v : Word, v.rotateLeft n = v) ↔ 32 ∣ n := by
  constructor
  · intro h
    have hbit := getLsbD_rotateLeft_add_mod 1 n (j := 0) (by decide)
    rw [h 1, Nat.zero_add] at hbit
    have hzero : n % 32 = 0 := by simpa using hbit
    exact Nat.dvd_of_mod_eq_zero hzero
  · intro h v
    rw [rotateLeft_eq_of_mod_eq v (n := 0) (Nat.mod_eq_zero_of_dvd h)]
    exact (eq_rotateLeft_of_getLsbD_add_mod fun j hj => by rw [Nat.add_zero, Nat.mod_eq_of_lt hj]).symm

/-- A left rotation by `n` is undone by one by `m` when the two distances make 32 (R101). -/
theorem rotateLeft_rotateLeft_of_add_eq (v : Word) {m n : Nat} (h : n + m = 32) :
    (v.rotateLeft n).rotateLeft m = v := by
  rw [rotateLeft_rotateLeft]
  exact forall_rotateLeft_eq_self_iff.2 (Dvd.intro 1 h.symm) v

/-- `m` applications of ROTL11 rotate by `11 * m` (R102). -/
theorem rotateLeft11_iterate (m : Nat) (v : Word) : rotateLeft11^[m] v = v.rotateLeft (11 * m) := by
  induction m with
  | zero => exact (forall_rotateLeft_eq_self_iff.2 (Dvd.intro 0 rfl) v).symm
  | succ m ih => rw [Function.iterate_succ_apply', ih, rotateLeft11_eq, rotateLeft_rotateLeft, Nat.mul_succ]

/-- 11 and 32 have no common factor, so ROTL11 comes back to the identity after the multiples of 32 (R102). -/
theorem forall_rotateLeft11_iterate_eq_self_iff {m : Nat} : (∀ v : Word, rotateLeft11^[m] v = v) ↔ 32 ∣ m := by
  simp only [rotateLeft11_iterate, forall_rotateLeft_eq_self_iff]
  exact Nat.Coprime.dvd_mul_left (by decide)

/-- A fixed point of ROTL11 is one of every rotation, because three applications of ROTL11 rotate by 1 (R100). -/
theorem rotateLeft_eq_self_of_rotateLeft11_eq_self {v : Word} (h : rotateLeft11 v = v) (n : Nat) :
    v.rotateLeft n = v :=
  calc v.rotateLeft n
    _ = v.rotateLeft (11 * (3 * n)) := rotateLeft_eq_of_mod_eq v (by omega)
    _ = rotateLeft11^[3 * n] v := (rotateLeft11_iterate (3 * n) v).symm
    _ = v := Function.iterate_fixed h (3 * n)

/-- Where every rotation fixes a word, all its bits are its lowest one. -/
theorem eq_zero_or_allOnes_of_rotateLeft_eq_self {v : Word} (h : ∀ n, v.rotateLeft n = v) :
    v = 0 ∨ v = BitVec.allOnes 32 := by
  have hbit : ∀ i < 32, v.getLsbD i = v.getLsbD 0 := by
    intro i hi
    have hmoved := getLsbD_rotateLeft_add_mod v i (j := 0) (by decide)
    rwa [h i, Nat.zero_add, Nat.mod_eq_of_lt hi] at hmoved
  cases hlow : v.getLsbD 0 with
  | false =>
    refine .inl (BitVec.eq_of_getLsbD_eq fun i hi => ?_)
    rw [hbit i hi, hlow]
    exact BitVec.getLsbD_zero.symm
  | true =>
    refine .inr (BitVec.eq_of_getLsbD_eq fun i hi => ?_)
    rw [hbit i hi, hlow, BitVec.getLsbD_allOnes, decide_eq_true hi]

/-- The fixed points of ROTL11 are the words with all bits alike (R100). -/
theorem rotateLeft11_eq_self_iff {v : Word} : rotateLeft11 v = v ↔ v = 0x00000000 ∨ v = 0xffffffff := by
  constructor
  · exact fun h => eq_zero_or_allOnes_of_rotateLeft_eq_self (rotateLeft_eq_self_of_rotateLeft11_eq_self h)
  · rintro (rfl | rfl) <;> rfl

/-- Settles O2: the answer is `rotateLeft11 v`, which is the library's rotation, hence the rule's formula. -/
theorem rotl11RotatesLeftByEleven : Obligations.Rotl11RotatesLeftByEleven := by
  intro v s
  refine ⟨rotateLeft11 v, ?formula, rfl, rotateLeft11_getLsbD v, exec_rotl11 v s,
    step_asked_encode (i := .rotl11 v) rfl, rotateLeft11_eq_self_iff, ?bit20, ?bit21⟩
  case formula => exact (rotateLeft11_eq v).trans BitVec.rotateLeft_def
  case bit20 | bit21 => rintro rfl; rfl

/-- Left by 21 and right by 11 are the same two shifts, in either order of the union (R102). -/
theorem rotateLeft_21_eq_rotateRight_11 (v : Word) : v.rotateLeft 21 = v.rotateRight 11 :=
  BitVec.or_comm (v <<< 21) (v >>> 11)

/-- Settles O23: ROTL11 is the rotation by 11, and the distances of rotations add up mod 32. -/
theorem rotl11HasOrderThirtyTwo : Obligations.Rotl11HasOrderThirtyTwo := by
  refine ⟨exec_rotl11, fun v => ⟨?left, ?right, rotateLeft_21_eq_rotateRight_11 v⟩, ?pair, ?iterate, ?fourTimes,
    ?fourTimesMoves, fun m => forall_rotateLeft11_iterate_eq_self_iff⟩
  case left | right => rw [rotateLeft11_eq, rotateLeft_rotateLeft_of_add_eq v rfl]
  case pair => exact fun n v hn => rotateLeft_rotateLeft_of_add_eq v (Nat.add_sub_cancel' hn)
  case iterate => exact fun m v => (rotateLeft11_iterate m v).trans BitVec.rotateLeft_mod_eq_rotateLeft.symm
  case fourTimes => exact fun v => (rotateLeft11_iterate 4 v).trans (rotateLeft_eq_of_mod_eq v (by decide))
  case fourTimesMoves => exact not_forall.1 (mt forall_rotateLeft11_iterate_eq_self_iff.1 (by decide))

end Sys2Proof.Machine
end

section
/-! PROOFS. The statements of 42_round_function.md: GFN as a sum, a substitution and a rotation (R105), and what follows
from each of the three alone (R107). -/

namespace Sys2Proof.Machine

/-- The sum modulo 2^32 of two words, as the number R105 writes, is their sum as words. -/
theorem ofNat_toNat_add_mod (a k : Word) : BitVec.ofNat 32 ((a.toNat + k.toNat) % 2 ^ 32) = a + k := by
  rw [← BitVec.toNat_add, BitVec.ofNat_toNat, BitVec.setWidth_eq]

/-- Settles O3: `u` is `t` of the sum, and its rotation is `g`. -/
theorem gfnAddsSubstitutesRotates : Obligations.GfnAddsSubstitutesRotates := by
  intro k a s
  rw [ofNat_toNat_add_mod]
  exact ⟨substitute s.config.sbox (a + k), roundFunction s.config.sbox k a, exec_subst _ s, exec_rotl11 _ s,
    exec_gfn k a s, step_asked_encode (i := .gfn k a) rfl⟩

/-! ## The inference of R107 -/

theorem exec_gfn_iff {k a r : Word} {s : State} :
    exec (.gfn k a) s = .next (s.answering ⟨33, r ++ 0#1⟩) ↔ roundFunction s.config.sbox k a = r :=
  exec_eq_answering_iff.trans encodeResponse_word_eq_iff

/-- `g` reads its operands through their sum (R107 (a)). -/
theorem roundFunction_congr (b : SBox) {k a k' a' : Word} (h : a + k = a' + k') :
    roundFunction b k a = roundFunction b k' a' := by
  rw [roundFunction, roundFunction, h]

/-- The rotations by 11 and by 21 undo each other (R101). -/
theorem rotateLeft11_bijective : Function.Bijective rotateLeft11 := by
  refine Function.bijective_iff_has_inverse.2 ⟨(BitVec.rotateLeft · 21), fun v => ?left, fun v => ?right⟩
  case left | right =>
    rw [rotateLeft11_eq]
    exact rotateLeft_rotateLeft_of_add_eq v rfl

/-- For a fixed key `g` is a bijection when the tables are (R107 (b)): adding the key, `t` and the rotation are each
one. -/
theorem roundFunction_bijective {b : SBox} (hb : b.IsBijective) (k : Word) :
    Function.Bijective (roundFunction b k) :=
  rotateLeft11_bijective.comp ((substitute_bijective hb).comp (AddGroup.addRight_bijective k))

/-- Settles O20: the three requests have one sum, and the bijection `g` takes each value exactly once. -/
theorem gfnDependsOnSumAndIsBijective : Obligations.GfnDependsOnSumAndIsBijective := by
  constructor
  · intro k a s
    rw [ofNat_toNat_add_mod]
    exact ⟨roundFunction s.config.sbox k a, exec_gfn k a s,
      exec_gfn_iff.2 (roundFunction_congr _ (BitVec.add_comm k a)),
      exec_gfn_iff.2 (roundFunction_congr _ (BitVec.add_zero (a + k)))⟩
  · intro k r s hb
    simp only [exec_gfn_iff]
    exact (roundFunction_bijective hb k).existsUnique r

end Sys2Proof.Machine
end

section
/-! PROOFS. The statements of 43_feistel_steps.md: FSTEP and FFINAL (R110, R111), and the spec's two inferences from them
(R112, R113). -/

namespace Sys2Proof.Machine

/-- Settles O4: the word mixed in is `g` of the low half, which is GFN's answer. -/
theorem fstepMixesAndSwaps : Obligations.FstepMixesAndSwaps := fun k a1 a0 s =>
  ⟨roundFunction s.config.sbox k a0, exec_gfn k a0 s, exec_fstep k a1 a0 s,
    step_asked_encode (i := .fstep k a1 a0) rfl⟩

/-- Settles O5: the word mixed in is FSTEP's, and the halves are packed where they stand. -/
theorem ffinalMixesWithoutSwap : Obligations.FfinalMixesWithoutSwap := fun k a1 a0 s =>
  ⟨roundFunction s.config.sbox k a0, exec_gfn k a0 s, exec_ffinal k a1 a0 s,
    step_asked_encode (i := .ffinal k a1 a0) rfl⟩

/-! ## The inferences of R112 and R113 -/

/-- Settles O18: `x` and `y` are the halves of `G`, which `G*` packs exchanged. -/
theorem ffinalIsFstepWithHalvesExchanged : Obligations.FfinalIsFstepWithHalvesExchanged := by
  intro k a1 a0 s
  have hfinal := encodeResponse_block_of_eq (feistelFinal_eq s.config.sbox k { a1 := a1, a0 := a0 })
  exact ⟨_, _, exec_fstep k a1 a0 s, exec_eq_answering_iff.2 hfinal⟩

/-- `G` of the exchanged pair is the original pair exchanged, whatever function `g` is: the same word is mixed in twice
(R113). -/
theorem feistelStep_exchanged (sbox : SBox) (k : Word) (p : Halves) :
    feistelStep sbox k { a1 := (feistelStep sbox k p).a0, a0 := (feistelStep sbox k p).a1 } =
      { a1 := p.a0, a0 := p.a1 } :=
  congrArg (Halves.mk p.a0) (xor_cancel_right p.a1 (roundFunction sbox k p.a0))

/-- FSTEP of what FSTEP answered, exchanged, answers the original pair exchanged (R113). -/
theorem exec_fstep_exchanged (k : Word) (p : Halves) (s : State) :
    exec (.fstep k (feistelStep s.config.sbox k p).a0 (feistelStep s.config.sbox k p).a1) s =
      .next (s.answering (encodeResponse (.pair { a1 := p.a0, a0 := p.a1 }))) := by
  rw [exec_fstep, feistelStep_exchanged]

/-- Settles O19: both steps mix in `g` of the same word, since FSTEP passes the low half through unchanged. -/
theorem fstepUndoneByItself : Obligations.FstepUndoneByItself := fun k a1 a0 s =>
  ⟨a0, a1 ^^^ roundFunction s.config.sbox k a0, roundFunction s.config.sbox k a0, exec_fstep k a1 a0 s,
    exec_gfn k a0 s, rfl, (xor_cancel_right a1 _).symm, exec_fstep_exchanged k { a1 := a1, a0 := a0 } s⟩

end Sys2Proof.Machine
end

section
/-! PROOFS. The statements of 44_key_schedule.md: EXPKEY of a 256-bit key (R120, R122, R123), of material of any other
length (R121), and the key read back from the schedule (R124). -/

namespace Sys2Proof.Machine

/-- A step on the frame of an EXPKEY request, for material whose length the `klen` field can say (R66). -/
theorem step_asked_expkey {klen : Nat} (km : BitVec klen) {s : State} (h : klen < 2 ^ s.config.klenW) :
    step (s.asked ⟨klen + s.config.klenW + 3, km ++ BitVec.ofNat s.config.klenW klen ++ 5#3⟩) =
      .next (s.answering (encodeResponse (expkeyResponse ⟨klen, km⟩))) :=
  step_asked_encode (i := .expkey ⟨klen, km⟩) (wf_expkey.2 h)

/-- A `klen` field of the widths R10 admits can say 256. -/
theorem lt_two_pow_of_nine_le {klenW : Nat} (h : 9 ≤ klenW) : 256 < 2 ^ klenW :=
  calc 256
    _ < 2 ^ 9 := by decide
    _ ≤ 2 ^ klenW := Nat.pow_le_pow_right (by decide) h

/-- Word `i` of the first three repetitions is `K[i mod 8]`, read from the answer to EXPKEY (R122). -/
theorem extract_packSchedule_expandKey_of_lt (key : MasterKey) {i : Nat} (h : i < 24) :
    (packSchedule (expandKey key)).extractLsb' (992 - 32 * i) 32 = key.extractLsb' (224 - 32 * (i % 8)) 32 := by
  rw [extract_packSchedule _ i (by omega), expandKey_getElem, if_pos h]

/-- Word `24 + i` of the reversal is `K[7 - i]`, read from the answer to EXPKEY (R122). -/
theorem extract_packSchedule_expandKey_reversed (key : MasterKey) {i : Nat} (h : i < 8) :
    (packSchedule (expandKey key)).extractLsb' (992 - 32 * (24 + i)) 32 = key.extractLsb' (224 - 32 * (7 - i)) 32 := by
  rw [extract_packSchedule _ (24 + i) (by omega), expandKey_getElem, if_neg (by omega),
    show 31 - (24 + i) = 7 - i by omega]

/-- Settles O6: the answer is the packed expansion of the key, whose words are the sub-keys in R122's order. -/
theorem expkeyExpandsMasterKey : Obligations.ExpkeyExpandsMasterKey := by
  intro key s
  refine ⟨packSchedule (expandKey key), fun i => extract_packSchedule_expandKey_of_lt key,
    fun i => extract_packSchedule_expandKey_reversed key i.isLt, exec_expkey_256 key s, fun hklenW => ?_⟩
  rw [step_asked_expkey key (lt_two_pow_of_nine_le hklenW), expkeyResponse_256]
  rfl

/-- Settles O7: the length alone decides the answer, which is the error. -/
theorem expkeyRejectsOtherLengths : Obligations.ExpkeyRejectsOtherLengths := by
  intro klen km s hlen
  refine ⟨exec_expkey_other hlen s, fun hfits => ?_⟩
  rw [step_asked_expkey km hfits, expkeyResponse_other hlen]
  rfl

/-! ## The inference of R124 (a) -/

/-- Two keys with equal sub-keys are equal (R123). -/
theorem masterKey_eq_of_subKeys {x y : MasterKey}
    (h : ∀ j < 8, x.extractLsb' (224 - 32 * j) 32 = y.extractLsb' (224 - 32 * j) 32) : x = y := by
  apply BitVec.eq_of_getLsbD_eq
  intro n hn
  have hplace : 224 - 32 * (7 - n / 32) + n % 32 = n := by omega
  have hbit := congrArg (fun w => w.getLsbD (n % 32)) (h (7 - n / 32) (by omega))
  simpa [BitVec.getLsbD_extractLsb', Nat.mod_lt, hplace] using hbit

/-- The upper 256 bits of the answer to EXPKEY are the key, because `RK[j] = K[j]` for `j` below 8 (R124). -/
theorem extract_packSchedule_expandKey_high (key : MasterKey) :
    (packSchedule (expandKey key)).extractLsb' 768 256 = key := by
  refine masterKey_eq_of_subKeys fun j hj => ?_
  rw [extract_extract _ _ _ _ _ (by omega), show 768 + (224 - 32 * j) = 992 - 32 * j by omega,
    extract_packSchedule_expandKey_of_lt key (by omega), Nat.mod_eq_of_lt hj]

/-- Settles O24: the key is read back from its schedule, so equal schedules come from equal keys. -/
theorem expkeyIsInjective : Obligations.ExpkeyIsInjective := by
  intro key key' s
  refine ⟨packSchedule (expandKey key), packSchedule (expandKey key'), exec_expkey_256 key s, exec_expkey_256 key' s,
    extract_packSchedule_expandKey_high key, fun hsched => ?_⟩
  rw [← extract_packSchedule_expandKey_high key, hsched, extract_packSchedule_expandKey_high key']

end Sys2Proof.Machine
end

section
/-! PROOFS. The 32 rounds of the cipher as one list of round keys: undoing them, reading the schedule backwards, and the
round traces (R130 to R135). -/

namespace Sys2Proof

/-- The pair with its halves exchanged. -/
def Halves.exchanged (p : Halves) : Halves := { a1 := p.a0, a0 := p.a1 }

@[simp] theorem Halves.exchanged_exchanged (p : Halves) : p.exchanged.exchanged = p := rfl

end Sys2Proof

namespace Sys2Proof.Machine

/-- A swapping round for every round key of `order`, and one exchange of the halves at the end: what ENC and DEC
compute, since `G*` is `G` with the halves exchanged (R112). -/
def feistelNetwork (sbox : SBox) (rk : Schedule) (order : List (Fin 32)) (blk : Block) : Block :=
  joinHalves (feistelRounds sbox rk order (splitBlock blk)).exchanged

theorem encryptBlock_eq_feistelNetwork (sbox : SBox) (blk : Block) (rk : Schedule) :
    encryptBlock sbox blk rk = feistelNetwork sbox rk (encOrder ++ [31]) blk := rfl

theorem decryptBlock_eq_feistelNetwork (sbox : SBox) (blk : Block) (rk : Schedule) :
    decryptBlock sbox blk rk = feistelNetwork sbox rk (decOrder ++ [0]) blk := rfl

/-! ## Undoing rounds (R113, R132) -/

/-- Rounds are undone by the same rounds in the opposite order on the exchanged halves. -/
theorem feistelRounds_reverse_exchanged (sbox : SBox) (rk : Schedule) (l : List (Fin 32)) (p : Halves) :
    feistelRounds sbox rk l.reverse (feistelRounds sbox rk l p).exchanged = p.exchanged := by
  induction l generalizing p with
  | nil => rfl
  | cons i l ih =>
    rw [List.reverse_cons, feistelRounds_append, feistelRounds_cons sbox rk i l p, ih]
    exact feistelStep_exchanged sbox rk[i] p

/-- Undoing the last rounds of a sequence leaves the halves that entered them, exchanged. -/
theorem feistelRounds_undo_last (sbox : SBox) (rk : Schedule) (l m : List (Fin 32)) (p : Halves) :
    feistelRounds sbox rk m (feistelRounds sbox rk (l ++ m.reverse) p).exchanged =
      (feistelRounds sbox rk l p).exchanged := by
  rw [feistelRounds_append]
  simpa using feistelRounds_reverse_exchanged sbox rk m.reverse (feistelRounds sbox rk l p)

theorem feistelNetwork_reverse {l m : List (Fin 32)} (h : m = l.reverse) (sbox : SBox) (rk : Schedule) (blk : Block) :
    feistelNetwork sbox rk m (feistelNetwork sbox rk l blk) = blk := by
  subst h
  rw [feistelNetwork, feistelNetwork, splitBlock_joinHalves, feistelRounds_reverse_exchanged,
    Halves.exchanged_exchanged, joinHalves_splitBlock]

/-- DEC undoes ENC: it takes ENC's round keys in the opposite order (R132). -/
theorem decryptBlock_encryptBlock (sbox : SBox) (blk : Block) (rk : Schedule) :
    decryptBlock sbox (encryptBlock sbox blk rk) rk = blk := by
  rw [encryptBlock_eq_feistelNetwork, decryptBlock_eq_feistelNetwork]
  exact feistelNetwork_reverse (by decide) sbox rk blk

/-- ENC undoes DEC (R132). -/
theorem encryptBlock_decryptBlock (sbox : SBox) (blk : Block) (rk : Schedule) :
    encryptBlock sbox (decryptBlock sbox blk rk) rk = blk := by
  rw [decryptBlock_eq_feistelNetwork, encryptBlock_eq_feistelNetwork]
  exact feistelNetwork_reverse (by decide) sbox rk blk

/-! ## The schedule read backwards (R134) -/

/-- Rounds that take word `f i` of one schedule are the rounds that take word `i` of another, when the words agree. -/
theorem feistelRounds_map {sbox : SBox} {rk rk' : Schedule} {f : Fin 32 → Fin 32} (h : ∀ i, rk'[i] = rk[f i])
    (l : List (Fin 32)) (p : Halves) : feistelRounds sbox rk (l.map f) p = feistelRounds sbox rk' l p := by
  induction l generalizing p with
  | nil => rw [List.map_nil, feistelRounds_nil, feistelRounds_nil]
  | cons i l ih => rw [List.map_cons, feistelRounds_cons, feistelRounds_cons, ih, h]

/-- DEC is ENC with the schedule read backwards: it takes word `31 - i` where ENC takes word `i`. -/
theorem decryptBlock_eq_encryptBlock_of_reversed {rk rev : Schedule} (h : ∀ i : Fin 32, rev[i.val] = rk[31 - i.val])
    (sbox : SBox) (blk : Block) : decryptBlock sbox blk rk = encryptBlock sbox blk rev := by
  have horder : decOrder ++ [0] = (encOrder ++ [31]).map Fin.rev := by decide
  have hrev (i : Fin 32) : rev[i] = rk[i.rev] :=
    (h i).trans (getElem_congr_idx (by rw [Fin.val_rev]; omega))
  rw [decryptBlock_eq_feistelNetwork, encryptBlock_eq_feistelNetwork, feistelNetwork, feistelNetwork, horder,
    feistelRounds_map hrev]

/-- Reading backwards twice is reading forwards. -/
theorem reversed_symm {rk rev : Schedule} (h : ∀ i : Fin 32, rev[i.val] = rk[31 - i.val]) (i : Fin 32) :
    rk[i.val] = rev[31 - i.val] := by
  rw [h ⟨31 - i.val, by omega⟩]
  exact getElem_congr_idx (show i.val = 31 - (31 - i.val) by omega)

/-! ## The round traces (R133) -/

/-- One round more of a sequence is one step `G`. -/
theorem feistelRounds_take_succ (sbox : SBox) (rk : Schedule) {l : List (Fin 32)} {j : Nat} (h : j < l.length)
    (p : Halves) :
    feistelRounds sbox rk (l.take (j + 1)) p = feistelStep sbox rk[l[j]] (feistelRounds sbox rk (l.take j) p) := by
  rw [List.take_succ_eq_append_getElem h, feistelRounds_append, feistelRounds_cons, feistelRounds_nil]

/-- Round `j` of ENC takes `RK[j]` (R130). -/
theorem encTrace_succ (sbox : SBox) (rk : Schedule) (blk : Block) (j : Fin 31) :
    encTrace sbox rk blk (j.val + 1) = feistelStep sbox rk[j.val] (encTrace sbox rk blk j.val) := by
  have hkey : ∀ j : Fin 31, (encOrder[j.val]'j.isLt).val = j.val := by decide
  rw [encTrace, feistelRounds_take_succ sbox rk (l := encOrder) j.isLt, Fin.getElem_fin, getElem_congr_idx (hkey j)]
  rfl

/-- Round `j` of DEC takes `RK[31-j]` (R131). -/
theorem decTrace_succ (sbox : SBox) (rk : Schedule) (blk : Block) (j : Fin 31) :
    decTrace sbox rk blk (j.val + 1) = feistelStep sbox rk[31 - j.val] (decTrace sbox rk blk j.val) := by
  have hkey : ∀ j : Fin 31, (decOrder[j.val]'j.isLt).val = 31 - j.val := by decide
  rw [decTrace, feistelRounds_take_succ sbox rk (l := decOrder) j.isLt, Fin.getElem_fin, getElem_congr_idx (hkey j)]
  rfl

/-- The last round takes what the trace ends in (R130). -/
theorem encryptBlock_eq_feistelFinal (sbox : SBox) (blk : Block) (rk : Schedule) :
    encryptBlock sbox blk rk = feistelFinal sbox rk[31] (encTrace sbox rk blk 31) := rfl

/-- The last round takes what the trace ends in (R131). -/
theorem decryptBlock_eq_feistelFinal (sbox : SBox) (blk : Block) (rk : Schedule) :
    decryptBlock sbox blk rk = feistelFinal sbox rk[0] (decTrace sbox rk blk 31) := rfl

/-- DEC's first `j` round keys are ENC's last `j`, in the opposite order (R133). -/
theorem encOrder_eq_take_append {j : Nat} (h1 : 1 ≤ j) (h31 : j ≤ 31) :
    encOrder ++ [31] = encOrder.take (32 - j) ++ (decOrder.take j).reverse := by
  have h : ∀ j : Fin 32, 1 ≤ j.val →
      encOrder ++ [31] = encOrder.take (32 - j.val) ++ (decOrder.take j.val).reverse := by decide
  exact h ⟨j, by omega⟩ h1

/-- After `j` rounds DEC has undone the last `j` rounds of ENC, and its halves are exchanged (R133). -/
theorem decTrace_encryptBlock (sbox : SBox) (rk : Schedule) (blk : Block) {j : Nat} (h1 : 1 ≤ j) (h31 : j ≤ 31) :
    decTrace sbox rk (encryptBlock sbox blk rk) j = (encTrace sbox rk blk (32 - j)).exchanged := by
  rw [decTrace, encryptBlock_eq_feistelNetwork, feistelNetwork, splitBlock_joinHalves, encOrder_eq_take_append h1 h31]
  exact feistelRounds_undo_last sbox rk (encOrder.take (32 - j)) (decOrder.take j) (splitBlock blk)

/-- DEC begins with the halves `G*` packed (R133). -/
theorem decTrace_encryptBlock_zero (sbox : SBox) (rk : Schedule) (blk : Block) :
    decTrace sbox rk (encryptBlock sbox blk rk) 0 =
      { a1 := (encTrace sbox rk blk 31).a1 ^^^ roundFunction sbox rk[31] (encTrace sbox rk blk 31).a0,
        a0 := (encTrace sbox rk blk 31).a0 } := by
  rw [encryptBlock_eq_feistelFinal]
  exact splitBlock_joinHalves _

end Sys2Proof.Machine
end

section
/-! PROOFS. The statements of 45_block_cipher.md: ENC and DEC round by round (R130, R131, R133), that they undo each
other (R132), and what a reversed or palindromic schedule makes of them (R134, R135). -/

namespace Sys2Proof.Machine

/-! ## The answers to FSTEP, ENC and DEC -/

theorem exec_fstep_of_eq {k : Word} {p q : Halves} {s : State} (h : q = feistelStep s.config.sbox k p) :
    exec (.fstep k p.a1 p.a0) s = .next (s.answering ⟨65, q.a1 ++ q.a0 ++ 0#1⟩) :=
  h ▸ exec_fstep k p.a1 p.a0 s

theorem exec_enc_of_eq {blk d : Block} {rk : Schedule} {s : State} (h : encryptBlock s.config.sbox blk rk = d) :
    exec (.enc blk rk) s = .next (s.answering ⟨65, d ++ 0#1⟩) :=
  exec_eq_answering_iff.2 (encodeResponse_block_of_eq h)

theorem exec_dec_of_eq {blk d : Block} {rk : Schedule} {s : State} (h : decryptBlock s.config.sbox blk rk = d) :
    exec (.dec blk rk) s = .next (s.answering ⟨65, d ++ 0#1⟩) :=
  exec_eq_answering_iff.2 (encodeResponse_block_of_eq h)

/-- A step on the frame of an ENC request (R67). -/
theorem step_asked_enc (blk : Block) (rk : Schedule) (s : State) :
    step (s.asked ⟨1091, blk ++ packSchedule rk ++ 6#3⟩) =
      .next (s.answering ⟨65, encryptBlock s.config.sbox blk rk ++ 0#1⟩) :=
  step_asked_encode (i := .enc blk rk) rfl

/-- A step on the frame of a DEC request (R67). -/
theorem step_asked_dec (blk : Block) (rk : Schedule) (s : State) :
    step (s.asked ⟨1091, blk ++ packSchedule rk ++ 7#3⟩) =
      .next (s.answering ⟨65, decryptBlock s.config.sbox blk rk ++ 0#1⟩) :=
  step_asked_encode (i := .dec blk rk) rfl

/-! ## Round by round (R130, R131, R133) -/

/-- Settles O9: the halves are ENC's round trace. -/
theorem encRunsThirtyTwoRounds : Obligations.EncRunsThirtyTwoRounds := by
  intro blk rk s
  refine ⟨fun j => (encTrace s.config.sbox rk blk j).a1, fun j => (encTrace s.config.sbox rk blk j).a0,
    encryptBlock s.config.sbox blk rk, rfl, rfl,
    fun j => exec_fstep_of_eq (encTrace_succ s.config.sbox rk blk j), exec_ffinal _ _ _ s, exec_enc blk rk s,
    fun sched hsched => ?_⟩
  rw [eq_packSchedule sched rk hsched]
  exact step_asked_enc blk rk s

/-- Settles O10: the halves are DEC's round trace. -/
theorem decRunsTheRoundsBackwards : Obligations.DecRunsTheRoundsBackwards := by
  intro blk rk s
  refine ⟨fun j => (decTrace s.config.sbox rk blk j).a1, fun j => (decTrace s.config.sbox rk blk j).a0,
    decryptBlock s.config.sbox blk rk, rfl, rfl,
    fun j => exec_fstep_of_eq (decTrace_succ s.config.sbox rk blk j), exec_ffinal _ _ _ s, exec_dec blk rk s,
    fun sched hsched => ?_⟩
  rw [eq_packSchedule sched rk hsched]
  exact step_asked_dec blk rk s

/-- Settles O15: the traces go on by `G` and end in `G*`, and each round of DEC undoes one of ENC on exchanged
halves. -/
theorem decryptionTraceMirrorsEncryption : Obligations.DecryptionTraceMirrorsEncryption := by
  intro sbox rk a b
  refine ⟨rfl, encTrace_succ sbox rk a, encryptBlock_eq_feistelFinal sbox a rk, rfl, decTrace_succ sbox rk b,
    decryptBlock_eq_feistelFinal sbox b rk, ?_⟩
  rintro rfl
  exact ⟨fun j => decTrace_encryptBlock sbox rk a, decTrace_encryptBlock_zero sbox rk a⟩

/-! ## Decryption undoes encryption (R132) -/

/-- Settles O13: each of ENC and DEC runs the other's rounds backwards on exchanged halves. -/
theorem decryptionUndoesEncryption : Obligations.DecryptionUndoesEncryption := fun blk rk s =>
  ⟨⟨_, exec_enc blk rk s, exec_dec_of_eq (decryptBlock_encryptBlock s.config.sbox blk rk)⟩,
    ⟨_, exec_dec blk rk s, exec_enc_of_eq (encryptBlock_decryptBlock s.config.sbox blk rk)⟩⟩

/-- Settles O14: the schedule field is the packed expansion of the key, which both requests carry. -/
theorem keyedRoundTripInFrames : Obligations.KeyedRoundTripInFrames := by
  intro key blk s hklenW
  refine ⟨packSchedule (expandKey key), encryptBlock s.config.sbox blk (expandKey key), ?expkey,
    step_asked_enc blk (expandKey key) s, ?dec⟩
  case expkey =>
    rw [step_asked_expkey key (lt_two_pow_of_nine_le hklenW), expkeyResponse_256]
    rfl
  case dec => rw [step_asked_dec, decryptBlock_encryptBlock]

/-! ## Reversed and palindromic schedules (R134, R135) -/

/-- Settles O16: the relation between a schedule and its reverse holds both ways. -/
theorem decIsEncWithScheduleReversed : Obligations.DecIsEncWithScheduleReversed := fun b rk rev s h =>
  ⟨⟨_, exec_dec b rk s, exec_enc_of_eq (decryptBlock_eq_encryptBlock_of_reversed h s.config.sbox b).symm⟩,
    ⟨_, exec_dec b rev s,
      exec_enc_of_eq (decryptBlock_eq_encryptBlock_of_reversed (reversed_symm h) s.config.sbox b).symm⟩⟩

/-- Under a schedule that reads the same both ways ENC is its own inverse (R135). -/
theorem encryptBlock_encryptBlock_of_palindrome {rk : Schedule} (h : ∀ i : Fin 32, rk[i.val] = rk[31 - i.val])
    (sbox : SBox) (blk : Block) : encryptBlock sbox (encryptBlock sbox blk rk) rk = blk := by
  rw [← decryptBlock_eq_encryptBlock_of_reversed h, decryptBlock_encryptBlock]

/-- The sub-key that EXPKEY puts in place `i` of the schedule (R122). -/
def subKeyIndex (i : Nat) : Nat := if i < 24 then i % 8 else 31 - i

theorem extract_packSchedule_expandKey (key : MasterKey) {i : Nat} (h : i < 32) :
    (packSchedule (expandKey key)).extractLsb' (992 - 32 * i) 32 = key.extractLsb' (224 - 32 * subKeyIndex i) 32 :=
  (extract_packSchedule _ i h).trans (expandKey_getElem key i h)

/-- The first eight places and the last eight face the same sub-keys. -/
theorem subKeyIndex_facing_outer {i : Nat} (hi : i < 32) (h : i < 8 ∨ 24 ≤ i) :
    subKeyIndex (31 - i) = subKeyIndex i := by
  unfold subKeyIndex; split_ifs <;> omega

/-- The sixteen places in the middle face the sub-keys from the other end. -/
theorem subKeyIndex_facing_middle {i : Nat} (h : 8 ≤ i ∧ i < 24) : subKeyIndex (31 - i) = 7 - subKeyIndex i := by
  unfold subKeyIndex; split_ifs <;> omega

theorem subKeyIndex_lt {i : Nat} (h : i < 32) : subKeyIndex i < 8 := by
  unfold subKeyIndex; split_ifs <;> omega

theorem subKeyIndex_eight_add {j : Nat} (h : j < 8) : subKeyIndex (8 + j) = j := by
  unfold subKeyIndex; split_ifs <;> omega

/-- Sub-keys placed as EXPKEY places them read the same both ways exactly when they do so themselves, because of the
middle sixteen places (R124 (b)). -/
theorem placed_subKeys_palindrome_iff {K : Nat → Word} :
    (∀ i : Fin 32, K (subKeyIndex i.val) = K (subKeyIndex (31 - i.val))) ↔ ∀ j : Fin 4, K j.val = K (7 - j.val) := by
  constructor
  · intro h j
    have hmiddle := h ⟨8 + j.val, by omega⟩
    rwa [subKeyIndex_facing_middle (i := 8 + j.val) (by omega), subKeyIndex_eight_add (by omega)] at hmiddle
  · intro h i
    have hsymm (j : Nat) (hj : j < 8) : K j = K (7 - j) := by
      by_cases hlow : j < 4
      · exact h ⟨j, hlow⟩
      · simpa [show 7 - (7 - j) = j by omega] using (h ⟨7 - j, by omega⟩).symm
    by_cases houter : i.val < 8 ∨ 24 ≤ i.val
    · rw [subKeyIndex_facing_outer i.isLt houter]
    · rw [subKeyIndex_facing_middle (by omega)]
      exact hsymm _ (subKeyIndex_lt i.isLt)

/-- Settles O17: DEC is ENC under such a schedule, and EXPKEY's answer holds the sub-keys as `subKeyIndex` places
them. -/
theorem palindromicScheduleMakesAnInvolution : Obligations.PalindromicScheduleMakesAnInvolution := by
  refine ⟨fun rk b s h => ?involution,
    fun key s => ⟨packSchedule (expandKey key), exec_expkey_256 key s, ?palindrome⟩⟩
  case involution =>
    exact ⟨_, exec_enc b rk s, exec_dec_of_eq (decryptBlock_eq_encryptBlock_of_reversed h s.config.sbox b),
      exec_enc_of_eq (encryptBlock_encryptBlock_of_palindrome h s.config.sbox b)⟩
  case palindrome =>
    have hwords (i : Fin 32) := extract_packSchedule_expandKey key i.isLt
    have hfacing (i : Fin 32) := extract_packSchedule_expandKey key (i := 31 - i.val) (by omega)
    simp only [hwords, hfacing]
    exact placed_subKeys_palindrome_iff (K := fun j => key.extractLsb' (224 - 32 * j) 32)

end Sys2Proof.Machine
end

section
/-! PROOFS. The statements of 60_exceptions.md: when the one error is raised and that nothing of it remains (R151), and
that no operation fails with a stop (R152). -/

namespace Sys2Proof.Machine

/-- The error alone is laid out as the one bit `st = 1` (R68, R69). -/
theorem encodeResponse_eq_errorFrame_iff {r : Response} : encodeResponse r = ⟨1, 1#1⟩ ↔ r = .invalidKeyLength := by
  constructor
  · intro h
    have hst : (encodeResponse r).val.getLsbD 0 = true := by rw [h]; rfl
    exact (status_encodeResponse r).1 hst
  · rintro rfl
    rfl

/-- Settles O8: the response to a request is the error exactly where R151 raises it, and the state after it holds the
array that alone later responses depend on. -/
theorem errorLeavesNothingBehind : Obligations.ErrorLeavesNothingBehind := by
  refine ⟨fun i s => ?raised, fun km s hlen => ?leaves⟩
  case raised =>
    calc exec i s = .next (s.answering ⟨1, 1#1⟩)
      _ ↔ encodeResponse (responseTo s.config.sbox i) = ⟨1, 1#1⟩ := exec_eq_answering_iff
      _ ↔ responseTo s.config.sbox i = .invalidKeyLength := encodeResponse_eq_errorFrame_iff
      _ ↔ ∃ km : KeyMaterial, i = .expkey km ∧ km.len ≠ 256 := responseTo_eq_invalidKeyLength
  case leaves =>
    exact ⟨s.answering ⟨1, 1#1⟩, exec_expkey_other hlen s, rfl, rfl, rfl,
      fun i => responseDependsOnRequestAndSboxAlone i s (s.answering ⟨1, 1#1⟩) rfl⟩

/-- Settles O44: of all that a step can do, only the frame that spells no request stops it; an idle step and an answer
go on. -/
theorem onlyUnspelledFramesStop : Obligations.OnlyUnspelledFramesStop := by
  intro s
  obtain ⟨-, hidle⟩ | ⟨f, rest, rfl, hnone, hrefused⟩ | ⟨f, rest, i, r, -, -, hanswer⟩ := step_cases s
  · exact .inl ⟨s, hidle⟩
  · exact .inr ⟨hrefused, f, rest.requests, rfl, hnone⟩
  · exact .inl ⟨rest.answering (encodeResponse r), hanswer⟩

end Sys2Proof.Machine
end


section
/-! PROOFS. The statements of 70_reset_and_hazards.md: every request waiting is answered, once, in as many steps as there
are requests (R189). -/

namespace Sys2Proof.Machine

/-- Where every frame waiting spells a request, there is a list of their answers, one to each. -/
theorem exists_forall₂_answers {c : Config} {qs : List Frame} (h : ∀ f ∈ qs, Spells c.klenW f) :
    ∃ rs, List.Forall₂ (Answers c) qs rs := by
  induction qs with
  | nil => exact ⟨[], .nil⟩
  | cons f qs ih =>
    obtain ⟨x, hx⟩ := exists_answers_of_spells (h f List.mem_cons_self)
    obtain ⟨rs, hrs⟩ := ih fun g hg => h g (List.mem_cons_of_mem f hg)
    exact ⟨x :: rs, .cons hx hrs⟩

/-- A run of as many steps as requests wait takes them all and emits their answers, in the order of the requests (log
entry 4), behind the responses `ps` already emitted. -/
theorem core_run_forall₂_answers {c : Config} {qs rs : List Frame} (h : List.Forall₂ (Answers c) qs rs)
    (ps : List Frame) :
    core.run qs.length { config := c, requests := qs, responses := ps } =
      .next { config := c, requests := [], responses := ps ++ rs } := by
  induction h generalizing ps with
  | nil => rw [List.append_nil]; rfl
  | @cons f x qs rs hx _ ih =>
    calc core.run (qs.length + 1) (State.asked { config := c, requests := qs, responses := ps } f)
      _ = core.run qs.length { config := c, requests := qs, responses := ps ++ [x] } := core_run_asked hx qs.length
      _ = .next { config := c, requests := [], responses := ps ++ [x] ++ rs } := ih (ps ++ [x])
      _ = .next { config := c, requests := [], responses := ps ++ x :: rs } := by rw [List.append_cons ps x rs]

/-- A core that was sent one request, and nothing else, emits that request's answer, and nothing else. -/
theorem step_soleRequest {c : Config} {f x : Frame} (h : Answers c f x) :
    step (soleRequest c f) = .next { config := c, requests := [], responses := [x] } :=
  h { config := c, requests := [], responses := [] } rfl

/-- Settles O43, by induction over the requests waiting: each has one answer in every core of the configuration, so the
run emits for it what a core sent that request alone emits. -/
theorem everyRequestIsAnsweredOnce : Obligations.EveryRequestIsAnsweredOnce := by
  intro s hsafe
  obtain ⟨rs, hrs⟩ := exists_forall₂_answers hsafe
  exact ⟨rs, hrs.length_eq.symm, core_run_forall₂_answers hrs s.responses,
    fun _ hj hj' => step_soleRequest (hrs.get hj hj')⟩

end Sys2Proof.Machine
end
